-- ==== Sys2Proof/Word.lean ====
section
/-! DEFINITION. The word types of the block (00_scope.md R7, R9; 10_state.md R21 to R34). Every quantity is
unsigned (R9, R222). -/

namespace Sys2Proof

/-- One byte: a byte of the code stream, or one pixel index (00_scope.md R7 `PIXEL_WIDTH`). -/
abbrev Byte := BitVec 8

/-- A code value, at most 12 bits wide (00_scope.md R7 `MAX_CODE_SIZE`, 30_encoding.md R77). -/
abbrev Code := BitVec 12

/-- A pixel count (00_scope.md R7 `COUNT_WIDTH`). -/
abbrev Count := BitVec 32

/-- A command word on the command port (00_scope.md R7 `CMD_WIDTH`, 30_encoding.md R71). -/
abbrev CommandWord := BitVec 48

end Sys2Proof
end

