-- ==== Sys2Proof/Config.lean ====
section
/-! DEFINITION. The fixed parameters of the block (00_scope.md R7; log 20) and the free values: what the spec
leaves unspecified after an instruction that goes on, or gives to the host (logs 4, 7). -/

namespace Sys2Proof.Config

/-- `CODE_SPACE`: dictionary slots, codes 0..4095 (00_scope.md R7). -/
abbrev codeSpace : Nat := 4096

/-- `MAX_CODE_SIZE` in bits (00_scope.md R7). -/
abbrev maxCodeSize : Nat := 12

/-- `STACK_DEPTH` in entries (00_scope.md R7). -/
abbrev stackDepth : Nat := 4096

/-- `ROOT_MIN` (00_scope.md R7). -/
abbrev rootMin : Nat := 2

/-- `ROOT_MAX` (00_scope.md R7). -/
abbrev rootMax : Nat := 8

/-- FREE VALUE: `codeSize` after a rejected START (10_state.md R40, 40_commands.md R101; log 4). -/
opaque freeCodeSize : Nat → BitVec 4

/-- FREE VALUE: `nextFreeCode` after a rejected START (10_state.md R40, 40_commands.md R101; log 4). -/
opaque freeNextFreeCode : Nat → BitVec 13

/-- FREE VALUE: `previousCode` after a rejected START (10_state.md R40, 40_commands.md R101; log 4). -/
opaque freePreviousCode : Nat → Option Code

/-- FREE VALUE: what the host reads at an output position the block has not written (70_reset_and_hazards.md R243, 93 I8;
log 7). -/
opaque freeOutput : Nat → Byte

end Sys2Proof.Config
end

