-- ==== Sys2Proof/Syntax.lean ====
section
/-! DEFINITION. The instructions: one constructor per row of spec/opcode_table.json. The block decodes at two
levels (30_encoding.md R70): three commands from the 48-bit command word, and eight code classes from the code
the accumulator yields. -/

namespace Sys2Proof

/-- The operations of the block (30_encoding.md R70, R75, R80). -/
inductive Instr where
  /-- `START r, n`: begin an image block with root size `r` and expected count `n` (40_commands.md R100). -/
  | start (r : Byte) (n : Count)
  /-- `FEED b`: deliver one byte of the code stream (40_commands.md R102). -/
  | feed (b : Byte)
  /-- `EOD`: end of data (40_commands.md R103). -/
  | eod
  /-- Class EOI: the End-of-Information code (42_code_dispatch.md R140). -/
  | codeEoi (c : Code)
  /-- Class BEYOND: a code above `nextFreeCode` (42_code_dispatch.md R141). -/
  | codeBeyond (c : Code)
  /-- Class CLEAR: the Clear code (42_code_dispatch.md R142). -/
  | codeClear (c : Code)
  /-- Class FIRST_UNDEF: first code after a reset, equal to `nextFreeCode` (42_code_dispatch.md R144). -/
  | codeFirstUndef (c : Code)
  /-- Class FIRST: first code after a reset, a literal (42_code_dispatch.md R143). -/
  | codeFirst (c : Code)
  /-- Class KWKWK: the code equal to `nextFreeCode` (42_code_dispatch.md R145). -/
  | codeKwkwk (c : Code)
  /-- Class KNOWN_FULL: a known code on a full dictionary (42_code_dispatch.md R147). -/
  | codeKnownFull (c : Code)
  /-- Class KNOWN: a known code, with room for its entry (42_code_dispatch.md R146). -/
  | codeKnown (c : Code)
  deriving DecidableEq, Repr

/-- The registers a code is read and classified against (30_encoding.md R77, R80). -/
structure CodeCtx where
  rootSize : Byte
  codeSize : BitVec 4
  nextFreeCode : BitVec 13
  previousCode : Option Code
  deriving DecidableEq, Repr

/-- The two encodings (30_encoding.md R70): a command word, or a code of the stream. -/
inductive Encoding where
  | command (w : CommandWord)
  | code (c : Code)
  deriving DecidableEq, Repr

/-- Why a command word spells no command (30_encoding.md R76, one constructor per bullet). -/
inductive DecodeError where
  /-- `op = 11`. -/
  | reservedOp
  /-- A non-zero `z` field. -/
  | reservedZ
  /-- FEED with a non-zero `r` or `imm[31:8]`. -/
  | feedUnusedBits
  /-- EOD with a non-zero `r` or `imm`. -/
  | eodUnusedBits
  deriving DecidableEq, Repr

end Sys2Proof
end

