-- ==== Sys2Proof/Machine/Operands.lean ====
section
/-! DEFINITION. Operand forms: the values derived from `rootSize` (00_scope.md R8), the fields of a command word
(30_encoding.md R71 to R73), and the conditions of the code classes (30_encoding.md R80). -/

namespace Sys2Proof.Machine

/-- `Clear = 2^rootSize` (00_scope.md R8). -/
def clearOf (r : Byte) : Nat := 2 ^ r.toNat

/-- `EOI = Clear + 1` (00_scope.md R8). -/
def eoiOf (r : Byte) : Nat := clearOf r + 1

/-- The first free slot after a reset, `Clear + 2` (00_scope.md R8). -/
def firstFreeOf (r : Byte) : Nat := clearOf r + 2

/-- The initial code size, `rootSize + 1` (00_scope.md R8). -/
def initialCodeSize (r : Byte) : BitVec 4 := (r + 1#8).setWidth 4

/-- START accepts `r` exactly when it is in `[ROOT_MIN, ROOT_MAX]` (40_commands.md R101). -/
def rootOk (r : Byte) : Bool := Config.rootMin ≤ r.toNat && r.toNat ≤ Config.rootMax

/-- `op = word[47:46]` (30_encoding.md R71). -/
def opField (w : CommandWord) : BitVec 2 := w.extractLsb' 46 2

/-- `z = word[45:40]` (30_encoding.md R71). -/
def zField (w : CommandWord) : BitVec 6 := w.extractLsb' 40 6

/-- `r = word[39:32]` (30_encoding.md R71, R72). -/
def rField (w : CommandWord) : Byte := w.extractLsb' 32 8

/-- `imm = word[31:0]`, START's `n` (30_encoding.md R71, R72). -/
def immField (w : CommandWord) : Count := w.extractLsb' 0 32

/-- `imm[31:8]`, which FEED needs to be 0 (30_encoding.md R71). -/
def immHighField (w : CommandWord) : BitVec 24 := w.extractLsb' 8 24

/-- `b = word[7:0]`, FEED's byte (30_encoding.md R73). -/
def byteField (w : CommandWord) : Byte := w.extractLsb' 0 8

/-- The code is `codeSize` bits wide (30_encoding.md R77). -/
def codeFits (x : CodeCtx) (c : Code) : Bool := c.toNat < 2 ^ x.codeSize.toNat

/-- Condition of row 1, EOI (30_encoding.md R80). -/
def isEoi (x : CodeCtx) (c : Code) : Bool := c.toNat == eoiOf x.rootSize

/-- Condition of row 2, BEYOND (30_encoding.md R80). -/
def isBeyond (x : CodeCtx) (c : Code) : Bool := x.nextFreeCode.toNat < c.toNat

/-- Condition of row 3, CLEAR (30_encoding.md R80). -/
def isClear (x : CodeCtx) (c : Code) : Bool := c.toNat == clearOf x.rootSize

/-- `previousCode == none` (30_encoding.md R80, row 5). -/
def isFirst (x : CodeCtx) : Bool := x.previousCode.isNone

/-- `code == nextFreeCode` (30_encoding.md R80, row 6). -/
def isNext (x : CodeCtx) (c : Code) : Bool := c.toNat == x.nextFreeCode.toNat

/-- `nextFreeCode == 4096`, the dictionary is full (30_encoding.md R80, row 7; 10_state.md R28). -/
def isFull (x : CodeCtx) : Bool := x.nextFreeCode.toNat == Config.codeSpace

/-- `code < nextFreeCode` and `nextFreeCode < 4096` (30_encoding.md R80, row 8). -/
def isKnown (x : CodeCtx) (c : Code) : Bool :=
  c.toNat < x.nextFreeCode.toNat && x.nextFreeCode.toNat < Config.codeSpace

end Sys2Proof.Machine
end

