-- ==== Sys2Proof/WellFormed.lean ====
section
/-! DEFINITION. Which instructions an encoding can spell. A command is well formed with every operand: the operand
types carry their widths, and START's `r` is validated by the command, not by the decoder (30_encoding.md R72). A
code-class instruction is well formed against the registers it is read with: its code has `codeSize` bits (R77), its
own row of R80 holds, and no earlier row does. -/

namespace Sys2Proof

open Sys2Proof.Machine

/-- The instruction is the one its encoding spells, against the registers `x` (30_encoding.md R75, R77, R80). -/
def Instr.wellFormed (x : CodeCtx) : Instr → Bool
  | .start _ _ => true
  | .feed _ => true
  | .eod => true
  | .codeEoi c => codeFits x c && isEoi x c
  | .codeBeyond c => codeFits x c && isBeyond x c && !isEoi x c
  | .codeClear c => codeFits x c && isClear x c && !isEoi x c && !isBeyond x c
  | .codeFirstUndef c =>
    codeFits x c && isFirst x && isNext x c && !isEoi x c && !isBeyond x c && !isClear x c
  | .codeFirst c =>
    codeFits x c && isFirst x && !isEoi x c && !isBeyond x c && !isClear x c && !isNext x c
  | .codeKwkwk c =>
    codeFits x c && isNext x c && !isEoi x c && !isBeyond x c && !isClear x c && !isFirst x
  | .codeKnownFull c =>
    codeFits x c && isFull x && !isEoi x c && !isBeyond x c && !isClear x c && !isFirst x && !isNext x c
  | .codeKnown c =>
    codeFits x c && isKnown x c && !isEoi x c && !isBeyond x c && !isClear x c && !isFirst x
      && !isNext x c && !isFull x

end Sys2Proof
end

