-- ==== Sys2Proof/Decode.lean ====
section
/-! DEFINITION. The decoder and the encoder, both from 30_encoding.md: command words (R71 to R76) and codes (R77, R80).
Decoding is total: a word that spells no command is rejected by a named reason (R76), and every code has a class (R80). -/

namespace Sys2Proof

open Sys2Proof.Machine

/-- The command a 48-bit word spells, or why it spells none (30_encoding.md R71, R75, R76). -/
def decodeCommand (w : CommandWord) : Except DecodeError Instr :=
  if opField w = 3#2 then .error .reservedOp
  else if zField w ≠ 0#6 then .error .reservedZ
  else if opField w = 0#2 then .ok (.start (rField w) (immField w))
  else if opField w = 1#2 then
    if rField w = 0#8 ∧ immHighField w = 0#24 then .ok (.feed (byteField w)) else .error .feedUnusedBits
  else
    if rField w = 0#8 ∧ immField w = 0#32 then .ok .eod else .error .eodUnusedBits

/-- The class of a code against the registers it is read with: the first row of 30_encoding.md R80 whose condition
holds, in the order 42_code_dispatch.md R148 tests them. -/
def decodeCode (x : CodeCtx) (c : Code) : Instr :=
  if isEoi x c then .codeEoi c
  else if isBeyond x c then .codeBeyond c
  else if isClear x c then .codeClear c
  else if isFirst x then
    if isNext x c then .codeFirstUndef c else .codeFirst c
  else if isNext x c then .codeKwkwk c
  else if isFull x then .codeKnownFull c
  else .codeKnown c

/-- Both levels of decoding (30_encoding.md R70). -/
def decode (x : CodeCtx) : Encoding → Except DecodeError Instr
  | .command w => decodeCommand w
  | .code c => .ok (decodeCode x c)

/-- The command word of a START (30_encoding.md R71, R83). -/
def encodeStart (r : Byte) (n : Count) : CommandWord := 0#2 ++ 0#6 ++ r ++ n

/-- The command word of a FEED (30_encoding.md R71, R83). -/
def encodeFeed (b : Byte) : CommandWord := 1#2 ++ 0#6 ++ 0#8 ++ 0#24 ++ b

/-- The command word of an EOD (30_encoding.md R71, R83). -/
def encodeEod : CommandWord := 2#2 ++ 0#6 ++ 0#8 ++ 0#32

/-- The encoding of an instruction: a command's word (30_encoding.md R83), or the code itself (R77). -/
def encode : Instr → Encoding
  | .start r n => .command (encodeStart r n)
  | .feed b => .command (encodeFeed b)
  | .eod => .command encodeEod
  | .codeEoi c => .code c
  | .codeBeyond c => .code c
  | .codeClear c => .code c
  | .codeFirstUndef c => .code c
  | .codeFirst c => .code c
  | .codeKwkwk c => .code c
  | .codeKnownFull c => .code c
  | .codeKnown c => .code c

/-- The registers a code row's word is read against when nothing else is given: those right after `START 2, n`
(40_commands.md R100's example). The class of a code is not a function of its bits alone (30_encoding.md R80), so the
host's one-word question about a code row needs some registers (DESIGN CHOICE, log 10). -/
def freshCtx : CodeCtx := ⟨2#8, 3#4, 6#13, none⟩

/-- A table word of at most two bytes is a code (30_encoding.md R77: at most 12 bits); every command has 48 bits (R71;
log 10). -/
def isCodeRow (nbits : Nat) : Bool := nbits ≤ 16

/-- The instruction the decoder reads from a table row's word. The width check is on the whole word, before it is cut to its
encoding's width: a code word of more than `codeSize` bits is none, and so is a command word of more than 48 bits (DESIGN
CHOICE: the spec gives a code of `codeSize` bits, R77, and not what a wider table word spells; log 10). -/
def decodeTableWord (nbits w : Nat) : Option Instr :=
  if isCodeRow nbits then
    if w < 2 ^ freshCtx.codeSize.toNat then some (decodeCode freshCtx (BitVec.ofNat 12 w)) else none
  else if 2 ^ 48 ≤ w then none
  else
    match decodeCommand (BitVec.ofNat 48 w) with
    | .ok i => some i
    | .error _ => none

end Sys2Proof
end

