-- ==== Sys2Proof/Machine/State.lean ====
section
/-! DEFINITION. The state of the block (10_state.md R20 to R34) and of the host's side of its ports, the reasons a step
can stop, and the state after hardware reset (10_state.md R40, 70_reset_and_hazards.md R230). -/

namespace Sys2Proof.Machine

/-- `status` (10_state.md R21). The reserved values 6 and 7 are never produced and have no constructor (93 I4, log 18). -/
inductive Status where
  | idle
  | run
  | complete
  | eoi
  | corrupt
  | truncated
  deriving DecidableEq, Repr

/-- `cause` (10_state.md R22). The reserved values 5 to 7 are never produced and have no constructor (93 I4, log 18). -/
inductive Cause where
  | none
  | codeBeyondNext
  | firstCodeUndefined
  | tableFull
  | badRootSize
  deriving DecidableEq, Repr

/-- One dictionary slot (10_state.md R31, 20_memory.md R50): `prefix[c]`, `pixelValue[c]`, `firstPixel[c]`. -/
structure Slot where
  prefixCode : Option Code
  pixelValue : Byte
  firstPixel : Byte
  deriving DecidableEq, Repr

/-- The registers the read port presents (10_state.md R35). -/
inductive ReadReg where
  | status
  | cause
  | faultCode
  | outCount
  | expected
  | rootSize
  | codeSize
  | nextFreeCode
  | previousCode
  | nbits
  deriving DecidableEq, Repr

/-- What a host read answers: a register's bits, `previousCode` with its valid bit, or a pixel index of the output
buffer (10_state.md R35, 40_commands.md R105; log 12). -/
inductive ReadData where
  | register (v : BitVec 32)
  | code (v : Option Code)
  | pixel (v : Byte)
  deriving DecidableEq, Repr

/-- What the host does between two commands (70_reset_and_hazards.md R252, R253; log 1). -/
inductive HostAction where
  /-- Issue a command word on the command port (30_encoding.md R71). -/
  | command (w : CommandWord)
  /-- Assert hardware reset (70_reset_and_hazards.md R230). -/
  | hardReset
  /-- Read a register on the read port (10_state.md R35). -/
  | readReg (r : ReadReg)
  /-- Read a position of the output buffer (40_commands.md R105). -/
  | readOut (i : Count)
  deriving DecidableEq, Repr

/-- Why the machine stops with no next state. The spec's own stops (60_exceptions.md R201) are statuses of a next
state and are not here. -/
inductive Fault where
  /-- RUN, and the host issues nothing more: the run has no outcome (70 R250, 93 I14 `stuck`). Raised by fetch. Safe. -/
  | stuckInRun
  /-- Read-port read of a register that has no defined answer (10_state.md R35 "a model faults on it", R40, 93 I3 `fault`). Raised by
  `readPort`. Safe. -/
  | unspecifiedRegister
  /-- Host read at or above `expected`: the output buffer has no such position (20_memory.md R50, R53). Raised by
  `readOutput`. Safe. -/
  | outputOutOfRange
  /-- A rule reads a dictionary slot that holds no specified value (10_state.md R33). Raised by the emission walk,
  AddEntry, KWKWK and KNOWN, only in states that break the dictionary invariant R32. Safe. -/
  | unspecifiedSlot
  /-- KWKWK or KNOWN with `previousCode == none`, outside their class condition (42 R145, R146). Safe. -/
  | noPreviousCode
  /-- AddEntry outside its precondition `nextFreeCode < 4096` (43_dictionary.md R172, 20_memory.md R51). Safe. -/
  | dictionaryFull
  /-- A push at `sp = 4096` (20_memory.md R52). Raised by the emission walk, only in states that break R32. Safe. -/
  | stackOverflow
  /-- A pop of an entry that was not pushed (20_memory.md R52). Raised by no state: emission pops what it pushed. Safe. -/
  | stackUnderflow
  /-- The decode loop consumes no bits: `codeSize = 0`, outside the range of 10_state.md R27 (41 R122 "The loop always
  ends"). Raised by the decode loop. Safe. -/
  | noProgress
  deriving DecidableEq, Repr

/-- Why the machine gives an instruction no meaning. -/
inductive Refusal where
  /-- An instruction with no meaning yet, raised by exec's arms only; no arm raises it. Safe. -/
  | notModelled (mnemonic : String)
  /-- A reserved command word, with the reason it spells no command (30_encoding.md R76, 40_commands.md R104,
  93 I5 `refuse`). Raised by fetch. Safe. -/
  | reserved (e : DecodeError)
  deriving DecidableEq, Repr

/-- The machine's state: plain data. -/
@[ext]
structure State where
  /-- Run state, 3 bits (10_state.md R21). -/
  status : Status
  /-- Why `status` is CORRUPT, 3 bits (10_state.md R22). -/
  cause : Cause
  /-- Offending value of a CORRUPT stop (10_state.md R23). -/
  faultCode : Code
  /-- Root-size byte of the last START (10_state.md R24). -/
  rootSize : Byte
  /-- Expected pixel count (10_state.md R25). -/
  expected : Count
  /-- Pixel indices written since the last START (10_state.md R26). -/
  outCount : Count
  /-- Width of the next code (10_state.md R27). -/
  codeSize : BitVec 4
  /-- Slot the next entry will occupy (10_state.md R28). -/
  nextFreeCode : BitVec 13
  /-- The code accepted before, with its valid bit (10_state.md R29). -/
  previousCode : Option Code
  /-- Bit accumulator (10_state.md R30). -/
  acc : BitVec 32
  /-- Occupied bits of `acc` (10_state.md R30). -/
  nbits : BitVec 5
  /-- The dictionary arrays, by code (10_state.md R31); a slot that is not listed holds no specified value (R33, log 5). -/
  dictionary : List (Nat × Slot)
  /-- The emission stack, by index (10_state.md R34); an entry that is not listed holds no specified value (log 6). -/
  stack : List Host.Cell
  /-- Emission stack pointer (10_state.md R34). -/
  sp : BitVec 13
  /-- The host's output buffer, by position (20_memory.md R53, R56); the block's writes are listed, all else is the
  host's (log 7). -/
  out : List Host.Cell
  /-- The host's next actions, in order (log 1). -/
  pending : List HostAction
  /-- The status last presented on the result port (00_scope.md R10 `return s`; log 11). -/
  result : Option Status
  /-- The answer of the host's last read (10_state.md R35; log 12). -/
  readData : Option ReadData
  /-- The MODEL's own counter: the index of the next free value (log 4). -/
  freeTick : Nat
  deriving DecidableEq, Repr

/-- Hardware reset (10_state.md R40, 70_reset_and_hazards.md R230). `rootSize`, `codeSize`, `nextFreeCode` and
`previousCode` are unspecified there: DESIGN CHOICE zero and none (log 3). -/
def State.reset : State where
  status := .idle
  cause := .none
  faultCode := 0#12
  rootSize := 0#8
  expected := 0#32
  outCount := 0#32
  codeSize := 0#4
  nextFreeCode := 0#13
  previousCode := Option.none
  acc := 0#32
  nbits := 0#5
  dictionary := []
  stack := []
  sp := 0#13
  out := []
  pending := []
  result := Option.none
  readData := Option.none
  freeTick := 0

end Sys2Proof.Machine
end

