-- ==== Sys2Proof/Machine/Memory.lean ====
section
/-! DEFINITION. The storage spaces of 20_memory.md R50 as sparse lists of (index, value) pairs in one canonical form:
indices strictly rising. An index that is not listed holds no specified value: reading it answers none (logs 5, 6).
In the output buffer it is the host's (log 7). -/

namespace Sys2Proof.Machine

/-- What index `a` holds, none where it holds no specified value. -/
def Store.read {α : Type} : List (Nat × α) → Nat → Option α
  | [], _ => none
  | (k, v) :: rest, a => if a = k then some v else Store.read rest a

/-- Store `v` at index `a`, keeping the indices strictly rising. -/
def Store.write {α : Type} : List (Nat × α) → Nat → α → List (Nat × α)
  | [], a, v => [(a, v)]
  | (k, w) :: rest, a, v =>
    if a < k then (a, v) :: (k, w) :: rest
    else if a = k then (a, v) :: rest
    else (k, w) :: Store.write rest a v

/-- Index `a` holds no specified value any more. -/
def Store.erase {α : Type} : List (Nat × α) → Nat → List (Nat × α)
  | [], _ => []
  | (k, w) :: rest, a => if a = k then rest else (k, w) :: Store.erase rest a

/-- The canonical form: indices strictly rising. No listed value equals what an unlisted index reads as, since that is
no value. -/
abbrev Store.wf {α : Type} (d : List (Nat × α)) : Prop := d.Pairwise (fun a b => a.1 < b.1)

/-- The canonical form of a byte memory: the output buffer and the emission stack. -/
abbrev Memory.wf (m : List Host.Cell) : Prop := Store.wf m

end Sys2Proof.Machine
end

