-- ==== Sys2Proof/Machine/Flags.lean ====
section
/-! DEFINITION. The block's flags are `status` and `cause` (10_state.md R39): their encodings (R21, R22), the level
output `done` (60_exceptions.md R200), and every test the rules make on them. -/

namespace Sys2Proof.Machine

/-- The encoding of `status` (10_state.md R21). -/
def Status.bits : Status → BitVec 3
  | .idle => 0#3
  | .run => 1#3
  | .complete => 2#3
  | .eoi => 3#3
  | .corrupt => 4#3
  | .truncated => 5#3

/-- The encoding of `cause` (10_state.md R22). -/
def Cause.bits : Cause → BitVec 3
  | .none => 0#3
  | .codeBeyondNext => 1#3
  | .firstCodeUndefined => 2#3
  | .tableFull => 3#3
  | .badRootSize => 4#3

/-- Terminal statuses (60_exceptions.md R200). -/
def Status.isTerminal : Status → Bool
  | .idle => false
  | .run => false
  | .complete => true
  | .eoi => true
  | .corrupt => true
  | .truncated => true

/-- The level output `done = (status is terminal)` (60_exceptions.md R200). -/
def State.done (s : State) : Bool := s.status.isTerminal

/-- DecodeLoop's condition: `status == RUN and nbits >= codeSize` (41_code_stream.md R122). -/
def codeReady (s : State) : Bool := s.status == .run && s.codeSize.toNat ≤ s.nbits.toNat

/-- GrowCodeSize's condition: `nextFreeCode == 2^codeSize and codeSize < 12` (43_dictionary.md R173). -/
def growsNow (s : State) : Bool :=
  s.nextFreeCode.toNat == 2 ^ s.codeSize.toNat && s.codeSize.toNat < Config.maxCodeSize

/-- PutPixel's condition: `outCount < expected` (43_dictionary.md R176). -/
def hasRoom (s : State) : Bool := s.outCount.toNat < s.expected.toNat

/-- CheckComplete's condition: `status == RUN and outCount == expected` (43_dictionary.md R177). -/
def isComplete (s : State) : Bool := s.status == .run && s.outCount == s.expected

/-- A START was rejected and none was issued since (40_commands.md R101): no other rule writes BAD_ROOT_SIZE
(10_state.md R22). -/
def rootRejected (s : State) : Bool := s.status == .corrupt && s.cause == .badRootSize

/-- The register has a specified value, by the columns of 10_state.md R40 (R35). -/
def isSpecified (s : State) : ReadReg → Bool
  | .status => true
  | .cause => true
  | .faultCode => true
  | .outCount => true
  | .expected => true
  | .rootSize => s.status != .idle
  | .codeSize => s.status != .idle && !rootRejected s
  | .nextFreeCode => s.status != .idle && !rootRejected s
  | .previousCode => s.status != .idle && !rootRejected s
  | .nbits => true

end Sys2Proof.Machine
end

