-- ==== Sys2Proof/Machine/Ops.lean ====
section
/-! DEFINITION. The named operations over registers and storage: every procedure of 41_code_stream.md,
43_dictionary.md and 60_exceptions.md, written once. -/

namespace Sys2Proof.Machine

/-- The outcome of an operation. -/
abbrev Result := Host.Outcome State Fault Refusal

/-- The next operation, where the one before it goes on (00_scope.md R11). -/
def andThen (o : Result) (f : State → Result) : Result :=
  match o with
  | .next s => f s
  | .fault e => .fault e
  | .refused e => .refused e

/-- The registers a code is classified against (30_encoding.md R80). -/
def State.ctx (s : State) : CodeCtx := ⟨s.rootSize, s.codeSize, s.nextFreeCode, s.previousCode⟩

/-! ## Stops -/

/-- `raise Corrupt(k, v)` (60_exceptions.md R203). -/
def raiseCorrupt (k : Cause) (v : Code) (s : State) : State :=
  { s with status := .corrupt, cause := k, faultCode := v }

/-- The part of START before the root size is checked: the fresh bit stream and the cleared stop registers
(40_commands.md R100). It leaves every stop (60_exceptions.md R210). The stack contents become unspecified (10_state.md
R40, log 6). -/
def beginBlock (r : Byte) (n : Count) (s : State) : State :=
  { s with
    acc := 0#32, nbits := 0#5, sp := 0#13, stack := []
    outCount := 0#32, expected := n, rootSize := r
    status := .run, cause := .none, faultCode := 0#12 }

/-- The other way out of a stop: hardware reset (60_exceptions.md R210, 70_reset_and_hazards.md R230). It writes nothing
to the host's output buffer; the host's later actions stand (log 15). -/
def hardReset (s : State) : State :=
  { State.reset with out := s.out, pending := s.pending, freeTick := s.freeTick }

/-- What a rejected START leaves unspecified (40_commands.md R101, 10_state.md R40): three free values, and a dictionary
that holds no specified value (logs 4, 5). -/
def loseDictionary (s : State) : State :=
  { s with
    codeSize := Config.freeCodeSize s.freeTick
    nextFreeCode := Config.freeNextFreeCode s.freeTick
    previousCode := Config.freePreviousCode s.freeTick
    dictionary := []
    freeTick := s.freeTick + 1 }

/-- `return s` of a command: present `status` on the result port (00_scope.md R10). -/
def returnStatus (s : State) : State := { s with result := some s.status }

/-! ## The code stream -/

/-- `AppendByte(b)` (41_code_stream.md R120). -/
def appendByte (b : Byte) (s : State) : State :=
  { s with acc := s.acc ||| (b.setWidth 32 <<< s.nbits.toNat), nbits := s.nbits + 8#5 }

/-- `acc[codeSize-1:0]` (41_code_stream.md R121). -/
def extractedCode (s : State) : Code := BitVec.ofNat 12 (s.acc.toNat % 2 ^ s.codeSize.toNat)

/-- `acc >> codeSize` and `nbits - codeSize` (41_code_stream.md R121). -/
def consumeCode (s : State) : State :=
  { s with acc := s.acc >>> s.codeSize.toNat, nbits := s.nbits - s.codeSize.setWidth 5 }

/-! ## The dictionary -/

/-- The literal slot of code `c` (43_dictionary.md R170). -/
def literalSlot (c : Nat) : Slot := ⟨none, BitVec.ofNat 8 c, BitVec.ofNat 8 c⟩

/-- `for c in 0 .. n-1`, write the literal slot of `c` (43_dictionary.md R170). -/
def writeLiterals : Nat → List (Nat × Slot) → List (Nat × Slot)
  | 0, d => d
  | n + 1, d => Store.write (writeLiterals n d) n (literalSlot n)

/-- `ResetDictionary()` (43_dictionary.md R170). -/
def resetDictionary (s : State) : State :=
  { s with
    dictionary := writeLiterals (clearOf s.rootSize) s.dictionary
    codeSize := initialCodeSize s.rootSize
    nextFreeCode := BitVec.ofNat 13 (firstFreeOf s.rootSize)
    previousCode := none }

/-- Read slot `c` (10_state.md R31). -/
def readSlot (c : Code) (s : State) : Option Slot := Store.read s.dictionary c.toNat

/-- `GrowCodeSize()` (43_dictionary.md R173). -/
def growCodeSize (s : State) : State :=
  if growsNow s then { s with codeSize := s.codeSize + 1#4 } else s

/-- Write slot `nextFreeCode` and increment `nextFreeCode` (43_dictionary.md R172). -/
def defineSlot (e : Slot) (s : State) : State :=
  { s with
    dictionary := Store.write s.dictionary s.nextFreeCode.toNat e
    nextFreeCode := s.nextFreeCode + 1#13 }

/-- `AddEntry(p, px)` (43_dictionary.md R172). -/
def addEntry (p : Code) (px : Byte) (s : State) : Result :=
  if s.nextFreeCode.toNat < Config.codeSpace then
    match readSlot p s with
    | none => .fault .unspecifiedSlot
    | some q => .next (growCodeSize (defineSlot ⟨some p, px, q.firstPixel⟩ s))
  else .fault .dictionaryFull

/-! ## Emission -/

/-- `OutWrite(i, v)` (20_memory.md R56). -/
def outWrite (i : Count) (v : Byte) (s : State) : State :=
  { s with out := Store.write s.out i.toNat v }

/-- `PutPixel(v)` (43_dictionary.md R176). -/
def putPixel (v : Byte) (s : State) : State :=
  if hasRoom s then { outWrite s.outCount v s with outCount := s.outCount + 1#32 } else s

/-- `stack[sp] <- v ; sp <- sp + 1` (43_dictionary.md R175, 20_memory.md R52). -/
def push (v : Byte) (s : State) : Result :=
  if s.sp.toNat < Config.stackDepth then
    .next { s with stack := Store.write s.stack s.sp.toNat v, sp := s.sp + 1#13 }
  else .fault .stackOverflow

/-- `sp <- sp - 1 ; PutPixel(stack[sp])` (43_dictionary.md R175). The entry popped is unspecified from then on
(10_state.md R34, log 6). -/
def popPixel (s : State) : Result :=
  match Store.read s.stack (s.sp - 1#13).toNat with
  | none => .fault .stackUnderflow
  | some v => .next (putPixel v { s with stack := Store.erase s.stack (s.sp - 1#13).toNat, sp := s.sp - 1#13 })

/-- Emit's first loop, tail to head (43_dictionary.md R175). It pushes once per slot, so a chain longer than the stack
overflows it. -/
def walkChain : Nat → Code → State → Result
  | 0, _, _ => .fault .stackOverflow
  | fuel + 1, k, s =>
    match readSlot k s with
    | none => .fault .unspecifiedSlot
    | some e =>
      andThen (push e.pixelValue s) fun s1 =>
        match e.prefixCode with
        | none => .next s1
        | some p => walkChain fuel p s1

/-- Emit's second loop, `while sp > 0`, head first (43_dictionary.md R175): `n` is `sp`. -/
def drainStack : Nat → State → Result
  | 0, s => .next s
  | n + 1, s => andThen (popPixel s) (drainStack n)

/-- `Emit(c)` (43_dictionary.md R175). -/
def emit (c : Code) (s : State) : Result :=
  andThen (walkChain Config.stackDepth c { s with sp := 0#13, stack := [] }) fun s1 => drainStack s1.sp.toNat s1

/-- `CheckComplete()` (43_dictionary.md R177). -/
def checkComplete (s : State) : State :=
  if isComplete s then { s with status := .complete } else s

/-- `previousCode <- some code ; CheckComplete()`, the end of FIRST, KWKWK and KNOWN (42_code_dispatch.md R143, R145,
R146). -/
def acceptCode (c : Code) (s : State) : State := checkComplete { s with previousCode := some c }

/-! ## The read port and the output buffer, read by the host -/

/-- The bits the read port presents for a register (10_state.md R35). -/
def registerData (s : State) : ReadReg → ReadData
  | .status => .register (s.status.bits.setWidth 32)
  | .cause => .register (s.cause.bits.setWidth 32)
  | .faultCode => .register (s.faultCode.setWidth 32)
  | .outCount => .register s.outCount
  | .expected => .register s.expected
  | .rootSize => .register (s.rootSize.setWidth 32)
  | .codeSize => .register (s.codeSize.setWidth 32)
  | .nextFreeCode => .register (s.nextFreeCode.setWidth 32)
  | .previousCode => .code s.previousCode
  | .nbits => .register (s.nbits.setWidth 32)

/-- A host read on the read port. A register whose value is unspecified per 10_state.md R40 "has no defined answer, and a model
faults on it" (R35; 93 I3 `fault`, 92 D10). -/
def readPort (r : ReadReg) (s : State) : Result :=
  if isSpecified s r then .next { s with readData := some (registerData s r) } else .fault .unspecifiedRegister

/-- What the host finds at output position `i`: below `outCount`, the pixel the block wrote since START (20_memory.md R53); none
where the contents are the host's own (70_reset_and_hazards.md R243), even if an earlier block wrote there (log 7). -/
def writtenPixel (i : Count) (s : State) : Option Byte :=
  if i.toNat < s.outCount.toNat then Store.read s.out i.toNat else none

/-- A host read of output position `i` (40_commands.md R105, 70_reset_and_hazards.md R243, R253): the pixel the block wrote,
or the host's own prior contents, a FREE VALUE (93 I8 "any value"; log 7). The buffer is `expected` bytes long (20_memory.md
R53). -/
def readOutput (i : Count) (s : State) : Result :=
  match writtenPixel i s with
  | some v => .next { s with readData := some (.pixel v) }
  | none =>
    if i.toNat < s.expected.toNat then
      .next { s with readData := some (.pixel (Config.freeOutput s.freeTick)), freeTick := s.freeTick + 1 }
    else .fault .outputOutOfRange

end Sys2Proof.Machine
end

