-- ==== Sys2Proof/Machine/Codes.lean ====
section
/-! DEFINITION. The eight code classes (42_code_dispatch.md R140 to R147), one meaning each, the dispatcher (R148) and the
decode loop (41_code_stream.md R122). A meaning is its rule's pseudocode; the class condition is the encoding
(30_encoding.md R80) and is tested by the dispatcher (log 8). -/

namespace Sys2Proof.Machine

/-- CODE.EOI (42_code_dispatch.md R140). -/
def execCodeEoi (_c : Code) (s : State) : Result := .next { s with status := .eoi }

/-- CODE.BEYOND (42_code_dispatch.md R141). -/
def execCodeBeyond (c : Code) (s : State) : Result := .next (raiseCorrupt .codeBeyondNext c s)

/-- CODE.CLEAR (42_code_dispatch.md R142). -/
def execCodeClear (_c : Code) (s : State) : Result := .next (resetDictionary s)

/-- CODE.FIRST_UNDEF (42_code_dispatch.md R144). -/
def execCodeFirstUndef (c : Code) (s : State) : Result := .next (raiseCorrupt .firstCodeUndefined c s)

/-- CODE.FIRST (42_code_dispatch.md R143). -/
def execCodeFirst (c : Code) (s : State) : Result :=
  andThen (emit c s) fun s1 => .next (acceptCode c s1)

/-- CODE.KWKWK (42_code_dispatch.md R145). -/
def execCodeKwkwk (c : Code) (s : State) : Result :=
  match s.previousCode with
  | none => .fault .noPreviousCode
  | some p =>
    match readSlot p s with
    | none => .fault .unspecifiedSlot
    | some q =>
      andThen (addEntry p q.firstPixel s) fun s1 =>
      andThen (emit c s1) fun s2 => .next (acceptCode c s2)

/-- CODE.KNOWN_FULL (42_code_dispatch.md R147). -/
def execCodeKnownFull (c : Code) (s : State) : Result := .next (raiseCorrupt .tableFull c s)

/-- CODE.KNOWN (42_code_dispatch.md R146). -/
def execCodeKnown (c : Code) (s : State) : Result :=
  match s.previousCode with
  | none => .fault .noPreviousCode
  | some p =>
    andThen (emit c s) fun s1 =>
    match readSlot c s1 with
    | none => .fault .unspecifiedSlot
    | some q => andThen (addEntry p q.firstPixel s1) fun s2 => .next (acceptCode c s2)

/-- `Dispatch(code)` (42_code_dispatch.md R148). -/
def dispatch (c : Code) (s : State) : Result :=
  if isEoi s.ctx c then execCodeEoi c s
  else if isBeyond s.ctx c then execCodeBeyond c s
  else if isClear s.ctx c then execCodeClear c s
  else if isFirst s.ctx then
    if isNext s.ctx c then execCodeFirstUndef c s else execCodeFirst c s
  else if isNext s.ctx c then execCodeKwkwk c s
  else if isFull s.ctx then execCodeKnownFull c s
  else execCodeKnown c s

/-- One iteration of the decode loop: `code <- ExtractCode() ; Dispatch(code)` (41_code_stream.md R122). -/
def decodeOne (s : State) : Result := dispatch (extractedCode s) (consumeCode s)

/-- `DecodeLoop()` (41_code_stream.md R122), with fuel. Every iteration removes `codeSize` bits, so `nbits` iterations are
enough whenever `codeSize` is not 0 (log 16). -/
def decodeLoop : Nat → State → Result
  | 0, s => if codeReady s then .fault .noProgress else .next s
  | fuel + 1, s => if codeReady s then andThen (decodeOne s) (decodeLoop fuel) else .next s

end Sys2Proof.Machine
end

