-- ==== Sys2Proof/Machine/Commands.lean ====
section
/-! DEFINITION. The three commands (40_commands.md R100 to R103), one meaning each. -/

namespace Sys2Proof.Machine

/-- START (40_commands.md R100, R101). -/
def execStart (r : Byte) (n : Count) (s : State) : Result :=
  let s1 := beginBlock r n s
  if rootOk r then
    let s2 := resetDictionary s1
    .next (returnStatus (if n = 0#32 then { s2 with status := .complete } else s2))
  else .next (returnStatus (raiseCorrupt .badRootSize (r.setWidth 12) (loseDictionary s1)))

/-- FEED (40_commands.md R102). -/
def execFeed (b : Byte) (s : State) : Result :=
  if s.status = .run then
    let s1 := appendByte b s
    andThen (decodeLoop s1.nbits.toNat s1) fun s2 => .next (returnStatus s2)
  else .next (returnStatus s)

/-- EOD (40_commands.md R103). -/
def execEod (s : State) : Result :=
  .next (returnStatus (if s.status = .run then { s with status := .truncated } else s))

end Sys2Proof.Machine
end

