-- ==== Sys2Proof/Machine/Dispatch.lean ====
section
/-! DEFINITION. One arm per constructor of Instr. -/

namespace Sys2Proof.Machine

def exec (i : Instr) (s : State) : Host.Outcome State Fault Refusal :=
  match i with
  | .start r n => Sys2Proof.Machine.execStart r n s
  | .feed b => Sys2Proof.Machine.execFeed b s
  | .eod => Sys2Proof.Machine.execEod s
  | .codeEoi c => Sys2Proof.Machine.execCodeEoi c s
  | .codeBeyond c => Sys2Proof.Machine.execCodeBeyond c s
  | .codeClear c => Sys2Proof.Machine.execCodeClear c s
  | .codeFirstUndef c => Sys2Proof.Machine.execCodeFirstUndef c s
  | .codeFirst c => Sys2Proof.Machine.execCodeFirst c s
  | .codeKwkwk c => Sys2Proof.Machine.execCodeKwkwk c s
  | .codeKnownFull c => Sys2Proof.Machine.execCodeKnownFull c s
  | .codeKnown c => Sys2Proof.Machine.execCodeKnown c s

end Sys2Proof.Machine
end

