-- ==== Sys2Proof/Machine/Fetch.lean ====
section
/-! DEFINITION. What the machine does next. There is no program counter (10_state.md R38): commands come from the host's
command port, one at a time (20_memory.md R60), and inside a FEED the next code comes from the accumulator. -/

namespace Sys2Proof.Machine

/-- The next turn: an instruction to run on a state, or a turn that runs none. -/
inductive Turn where
  | run (i : Instr) (s : State)
  | settle (o : Host.Outcome State Fault Refusal)
  deriving Repr

/-- The next code of a state inside a decode loop, with its class (41_code_stream.md R121, 30_encoding.md R80; log 9). -/
def nextCode (s : State) : Turn := .run (decodeCode s.ctx (extractedCode s)) (consumeCode s)

/-- The host's action on the block: a command word is decoded and run, or refused (30_encoding.md R75, R76); hardware
reset and the two reads run no instruction (70_reset_and_hazards.md R230, R253). -/
def hostTurn (a : HostAction) (s : State) : Turn :=
  match a with
  | .command w =>
    match decodeCommand w with
    | .ok i => .run i s
    | .error e => .settle (.refused (.reserved e))
  | .hardReset => .settle (.next (hardReset s))
  | .readReg r => .settle (readPort r s)
  | .readOut i => .settle (readOutput i s)

/-- With nothing pending, a block in RUN is stuck (93 I14); in any other status it waits, unchanged
(70_reset_and_hazards.md R231, 60_exceptions.md R219; log 2). -/
def noAction (s : State) : Turn :=
  .settle (if s.status = .run then .fault .stuckInRun else .next s)

/-- The next turn. A state whose decode loop still has a code to extract (41_code_stream.md R122) is inside a FEED and
goes on with that code; no command leaves such a state (log 9). Otherwise the host's next action is taken. -/
def fetch (s : State) : Turn :=
  if codeReady s then nextCode s
  else
    match s.pending with
    | [] => noAction s
    | a :: rest => hostTurn a { s with pending := rest }

/-- `s` with command word `w` as the host's next action. A state inside a decode loop drops the bits it has left, so that
the command is next. -/
def placeCommand (w : CommandWord) (s : State) : State :=
  let s1 := if codeReady s then { s with acc := 0#32, nbits := 0#5 } else s
  { s1 with pending := .command w :: s.pending }

/-- `s` with `c` as the next code of the stream. A block that is not in RUN first gets the registers of a block that
START 2 began (log 10). -/
def placeCode (c : Code) (s : State) : State :=
  let s1 :=
    if s.status = .run then s
    else
      let s0 := beginBlock freshCtx.rootSize 0xFFFFFFFF#32 s
      resetDictionary s0
  { s1 with acc := BitVec.ofNat 32 (c.toNat % 2 ^ s1.codeSize.toNat), nbits := s1.codeSize.setWidth 5 }

end Sys2Proof.Machine
end

