-- ==== Sys2Proof/Machine/Step.lean ====
section
/-! DEFINITION. One step: the next instruction is fetched, decoded and run. A command is one step (20_memory.md R58,
70_reset_and_hazards.md R241). -/

namespace Sys2Proof.Machine

/-- One step of the machine. -/
def step (s : State) : Host.Outcome State Fault Refusal :=
  match fetch s with
  | .run i s1 => exec i s1
  | .settle o => o

/-- `s` with a table row's word placed where `step` takes its next instruction from (log 10). -/
def State.withFetchWord (s : State) (nbits w : Nat) : State :=
  if isCodeRow nbits then placeCode (BitVec.ofNat 12 w) s else placeCommand (BitVec.ofNat 48 w) s

end Sys2Proof.Machine
end

