-- ==== Sys2Proof/Machine/Assembler.lean ====
section
/-! DEFINITION. The assembler notation of 30_encoding.md: command lines (R83), `FEEDS` (R84), `CODES` (R85) and the
listing form of a code. It produces command words; the machine does not read it. Lines are lists of characters, and a
line the notation does not allow assembles to nothing (log 21). -/

namespace Sys2Proof.Machine

/-! ## Packing codes -/

/-- GrowCodeSize after an increment of `nextFreeCode`, on the registers a width depends on (43_dictionary.md R172,
R173). -/
def grownCtx (x : CodeCtx) : CodeCtx :=
  let n := x.nextFreeCode + 1#13
  if n.toNat = 2 ^ x.codeSize.toNat ∧ x.codeSize.toNat < Config.maxCodeSize then
    { x with nextFreeCode := n, codeSize := x.codeSize + 1#4 }
  else { x with nextFreeCode := n }

/-- The registers right after a reset at root size `r` (43_dictionary.md R170). -/
def resetCtx (r : Byte) : CodeCtx := ⟨r, initialCodeSize r, BitVec.ofNat 13 (firstFreeOf r), none⟩

/-- The registers the next code is read with, after an instruction of a code class; none where the class stops the block
or the instruction is a command (30_encoding.md R85: by R170, R172, R173 and R148). -/
def nextCtx (x : CodeCtx) : Instr → Option CodeCtx
  | .start _ _ => none
  | .feed _ => none
  | .eod => none
  | .codeEoi _ => none
  | .codeBeyond _ => none
  | .codeClear _ => some (resetCtx x.rootSize)
  | .codeFirstUndef _ => none
  | .codeFirst c => some { x with previousCode := some c }
  | .codeKwkwk c => some { grownCtx x with previousCode := some c }
  | .codeKnownFull _ => none
  | .codeKnown c => some { grownCtx x with previousCode := some c }

/-- The bits of a code at width `w`, least significant first (20_memory.md R55). -/
def codeBits (w : Nat) (c : Code) : List Bool := (List.range w).map c.getLsbD

/-- The bit stream of a code list; none for a code that does not fit its width, or for a list that goes on past a code
that stops the block (30_encoding.md R85). -/
def packBits : CodeCtx → List Code → Option (List Bool)
  | _, [] => some []
  | x, c :: cs =>
    if codeFits x c then
      match nextCtx x (decodeCode x c) with
      | some y => (packBits y cs).map (codeBits x.codeSize.toNat c ++ ·)
      | none => if cs.isEmpty then some (codeBits x.codeSize.toNat c) else none
    else none

/-- The value of a list of bits, least significant first. -/
def bitsValue : List Bool → Nat
  | [] => 0
  | b :: bs => b.toNat + 2 * bitsValue bs

/-- `n` bytes of a bit stream, the last one filled up with zeros (30_encoding.md R85). -/
def packBytes : Nat → List Bool → List Byte
  | 0, _ => []
  | n + 1, bits => BitVec.ofNat 8 (bitsValue (bits.take 8)) :: packBytes n (bits.drop 8)

/-- The bytes of `CODES r: c0, c1, …` (30_encoding.md R85). -/
def codesBytes (r : Byte) (cs : List Code) : Option (List Byte) :=
  if rootOk r then (packBits (resetCtx r) cs).map fun bits => packBytes ((bits.length + 7) / 8) bits
  else none

/-- `FEEDS b0, b1, …` (30_encoding.md R84). -/
def feeds (bs : List Byte) : List Instr := bs.map Instr.feed

/-! ## Text -/

/-- Split at every `sep`. -/
def splitAtChar (sep : Char) : List Char → List (List Char)
  | [] => [[]]
  | c :: cs =>
    if c = sep then [] :: splitAtChar sep cs
    else
      match splitAtChar sep cs with
      | [] => [[c]]
      | w :: ws => (c :: w) :: ws

/-- Without spaces at either end. -/
def trimSpaces (cs : List Char) : List Char :=
  ((cs.dropWhile (· = ' ')).reverse.dropWhile (· = ' ')).reverse

/-- The value of a digit in base 16. -/
def digitValue (c : Char) : Option Nat :=
  if '0'.toNat ≤ c.toNat ∧ c.toNat ≤ '9'.toNat then some (c.toNat - '0'.toNat)
  else if 'a'.toNat ≤ c.toNat ∧ c.toNat ≤ 'f'.toNat then some (c.toNat - 'a'.toNat + 10)
  else if 'A'.toNat ≤ c.toNat ∧ c.toNat ≤ 'F'.toNat then some (c.toNat - 'A'.toNat + 10)
  else none

/-- The value of a digit string in a base, most significant digit first, after a value already read. -/
def digitsValue (base : Nat) : Nat → List Char → Option Nat
  | v, [] => some v
  | v, c :: cs =>
    match digitValue c with
    | some d => if d < base then digitsValue base (base * v + d) cs else none
    | none => none

/-- A number: decimal, or hexadecimal with `0x` (30_encoding.md R83), below `bound`. -/
def parseNumber (bound : Nat) (cs : List Char) : Option Nat :=
  let v :=
    match trimSpaces cs with
    | [] => none
    | ['0', 'x'] => none
    | '0' :: 'x' :: hex => digitsValue 16 0 hex
    | dec => digitsValue 10 0 dec
  v.filter (· < bound)

/-- Numbers separated by commas. -/
def parseNumbers (bound : Nat) (cs : List Char) : Option (List Nat) :=
  (splitAtChar ',' cs).mapM (parseNumber bound)

/-- The operands of a line by its mnemonic (30_encoding.md R83 to R85). -/
def parseOperands (mnemonic rest : List Char) : Option (List Instr) :=
  if mnemonic = ['S', 'T', 'A', 'R', 'T'] then
    match splitAtChar ',' rest with
    | [r, n] =>
      match parseNumber (2 ^ 8) r, parseNumber (2 ^ 32) n with
      | some r, some n => some [.start (BitVec.ofNat 8 r) (BitVec.ofNat 32 n)]
      | _, _ => none
    | _ => none
  else if mnemonic = ['F', 'E', 'E', 'D'] then
    (parseNumber (2 ^ 8) rest).map fun b => [.feed (BitVec.ofNat 8 b)]
  else if mnemonic = ['E', 'O', 'D'] then
    if trimSpaces rest = [] then some [.eod] else none
  else if mnemonic = ['F', 'E', 'E', 'D', 'S'] then
    (parseNumbers (2 ^ 8) rest).map fun bs => feeds (bs.map (BitVec.ofNat 8))
  else if mnemonic = ['C', 'O', 'D', 'E', 'S'] then
    match splitAtChar ':' rest with
    | [r, cs] =>
      match parseNumber (2 ^ 8) r, parseNumbers (2 ^ 12) cs with
      | some r, some cs => (codesBytes (BitVec.ofNat 8 r) (cs.map (BitVec.ofNat 12))).map feeds
      | _, _ => none
    | _ => none
  else none

/-- One line: a command or a pseudo-instruction, or nothing, and then a comment after `;` (30_encoding.md R83). -/
def parseLine (line : List Char) : Option (List Instr) :=
  let body := trimSpaces (line.takeWhile (· ≠ ';'))
  if body = [] then some []
  else parseOperands (body.takeWhile (· ≠ ' ')) (body.dropWhile (· ≠ ' '))

/-- The command word of an encoding, none for a code. -/
def commandWord : Encoding → Option CommandWord
  | .command w => some w
  | .code _ => none

/-- Assemble a program, one command a line (30_encoding.md R83). -/
def assemble (lines : List (List Char)) : Option (List CommandWord) :=
  (lines.mapM parseLine).map fun is => is.flatten.filterMap fun i => commandWord (encode i)

/-- The listing form `#c/w`: code value `c` packed at width `w` (30_encoding.md R85). -/
def listCode (c : Code) (w : Nat) : List Char := '#' :: Nat.toDigits 10 c.toNat ++ '/' :: Nat.toDigits 10 w

end Sys2Proof.Machine
end

