-- ==== Sys2Proof/Safety.lean ====
section
/-! DEFINITION. The terms claims are stated in: the invariants the spec states of the block's registers and arrays, the
pixel string of a code, a run of the decode loop, and the outcome of a block run. -/

namespace Sys2Proof.Machine

/-- Code `c` is neither Clear nor EOI (30_encoding.md R81). -/
def notReserved (r : Byte) (c : Nat) : Prop := c ≠ clearOf r ∧ c ≠ eoiOf r

/-- What slot `c` must hold (10_state.md R32): a literal below Clear; above EOI, the previous code with one more pixel.
Every pixel is a literal value (43_dictionary.md R178). -/
def SlotInv (r : Byte) (d : List (Nat × Slot)) (c : Nat) (e : Slot) : Prop :=
  (c < clearOf r ∧ e = literalSlot c) ∨
  (firstFreeOf r ≤ c ∧ e.pixelValue.toNat < clearOf r ∧ e.firstPixel.toNat < clearOf r ∧
    ∃ p q, e.prefixCode = some p ∧ p.toNat < c ∧ notReserved r p.toNat ∧
      Store.read d p.toNat = some q ∧ e.firstPixel = q.firstPixel)

/-- The dictionary invariant (10_state.md R32), for every code below `n` other than Clear and EOI. -/
def DictInv (r : Byte) (n : Nat) (d : List (Nat × Slot)) : Prop :=
  ∀ c, c < n → notReserved r c → ∃ e, Store.read d c = some e ∧ SlotInv r d c e

/-- What holds of the registers in RUN, between any two code dispatches. -/
structure Live (s : State) : Prop where
  /-- 10_state.md R24. -/
  root : rootOk s.rootSize = true
  /-- 10_state.md R28. -/
  nextLow : firstFreeOf s.rootSize ≤ s.nextFreeCode.toNat
  /-- 10_state.md R28. -/
  nextHigh : s.nextFreeCode.toNat ≤ Config.codeSpace
  /-- 30_encoding.md R79, 43_dictionary.md R174. -/
  width : s.codeSize.toNat = min Config.maxCodeSize (Nat.log2 s.nextFreeCode.toNat + 1)
  /-- 42_code_dispatch.md R143. -/
  prevNone : s.previousCode = none → s.nextFreeCode.toNat = firstFreeOf s.rootSize
  /-- 10_state.md R29. -/
  prevSome : ∀ p, s.previousCode = some p →
    p.toNat < s.nextFreeCode.toNat ∧ notReserved s.rootSize p.toNat
  /-- 10_state.md R32. -/
  dict : DictInv s.rootSize s.nextFreeCode.toNat s.dictionary

/-- What holds of every state a run reaches, and also between a code's last pixel and its CheckComplete. -/
structure MidCode (s : State) : Prop where
  /-- Canonical form of the output buffer. -/
  outWf : Memory.wf s.out
  /-- Canonical form of the dictionary. -/
  dictWf : Store.wf s.dictionary
  /-- 10_state.md R34: `sp = 0` at every command boundary. -/
  spZero : s.sp = 0#13
  /-- 10_state.md R34: then no stack entry is specified. -/
  stackEmpty : s.stack = []
  /-- 10_state.md R22. -/
  causeIff : s.cause ≠ Cause.none ↔ s.status = .corrupt
  /-- 10_state.md R23. -/
  faultZero : s.status ≠ .corrupt → s.faultCode = 0#12
  /-- 10_state.md R26. -/
  countLe : s.outCount.toNat ≤ s.expected.toNat
  /-- 60_exceptions.md R202. -/
  completeFull : s.status = .complete → s.outCount = s.expected
  /-- 60_exceptions.md R204, R205. -/
  shortStop : s.status = .eoi ∨ s.status = .truncated → s.outCount.toNat < s.expected.toNat
  /-- 70_reset_and_hazards.md R243, 43_dictionary.md R178. -/
  written : ∀ i, i < s.outCount.toNat → ∃ v, Store.read s.out i = some v ∧ v.toNat < clearOf s.rootSize
  /-- 10_state.md R30: bits `acc[31:nbits]` are 0. -/
  accBits : s.acc.toNat < 2 ^ s.nbits.toNat
  /-- 10_state.md R30: at most 19. -/
  nbitsLe : s.nbits.toNat ≤ 19
  /-- In RUN. -/
  live : s.status = .run → Live s

/-- What holds of every state a run reaches. -/
structure Inv (s : State) : Prop extends MidCode s where
  /-- 40_commands.md R103: "RUN means `outCount < expected`". -/
  room : s.status = .run → s.outCount.toNat < s.expected.toNat

/-- The pixel string of code `c`, oldest pixel first (00_scope.md R13, 43_dictionary.md R175): the chain from `c` back to a
literal, at most `fuel` slots. -/
def pixelString (d : List (Nat × Slot)) : Nat → Code → Option (List Byte)
  | 0, _ => none
  | fuel + 1, c =>
    match Store.read d c.toNat with
    | none => none
    | some e =>
      match e.prefixCode with
      | none => some [e.pixelValue]
      | some p => (pixelString d fuel p).map (· ++ [e.pixelValue])

/-- The string a code stands for, of at most `STACK_DEPTH` pixels. -/
def stringOf (s : State) (c : Code) : Option (List Byte) := pixelString s.dictionary Config.stackDepth c

/-- Write a pixel string, oldest pixel first (43_dictionary.md R175, R176). -/
def putString (str : List Byte) (s : State) : State := str.foldl (fun t v => putPixel v t) s

/-- What the emission of `str` does to the output (43_dictionary.md R175, R176): from position `outCount` on, the string's
pixels in order, cut at `expected`; every other position is as before. -/
def Emitted (str : List Byte) (s t : State) : Prop :=
  t.outCount.toNat = min (s.outCount.toNat + str.length) s.expected.toNat ∧
  ∀ i, Store.read t.out i =
    if s.outCount.toNat ≤ i ∧ i < t.outCount.toNat then str[i - s.outCount.toNat]? else Store.read s.out i

/-- What AddEntry does with the entry `e` (43_dictionary.md R172, R173): slot `nextFreeCode` is `e`, every other slot is as
before, `nextFreeCode` is one more, and `codeSize` grows by one exactly when `nextFreeCode` now equals `2^codeSize` and
`codeSize` is below 12. -/
def EntryAdded (e : Slot) (s t : State) : Prop :=
  (∀ a, Store.read t.dictionary a = if a = s.nextFreeCode.toNat then some e else Store.read s.dictionary a) ∧
  t.nextFreeCode.toNat = s.nextFreeCode.toNat + 1 ∧
  t.codeSize.toNat =
    if s.nextFreeCode.toNat + 1 = 2 ^ s.codeSize.toNat ∧ s.codeSize.toNat < 12 then s.codeSize.toNat + 1
    else s.codeSize.toNat

/-- CheckComplete's result after an accepted code of a block in RUN (43_dictionary.md R177). -/
def CompletionChecked (t : State) : Prop :=
  (t.outCount = t.expected → t.status = .complete) ∧ (t.outCount ≠ t.expected → t.status = .run)

/-- `s` and `t` differ at most in dictionary slots no rule reads: slots Clear, EOI, and at or above `nextFreeCode`
(10_state.md R33). -/
def SameLiveSlots (s t : State) : Prop :=
  t = { s with dictionary := t.dictionary } ∧
  ∀ c, c < s.nextFreeCode.toNat → notReserved s.rootSize c →
    Store.read s.dictionary c = Store.read t.dictionary c

/-- `n` codes are extracted and run, one after the other, and then no whole code is left or the block has stopped
(41_code_stream.md R122): each code is run by exec, as the instruction its class is. -/
inductive DecodeRun : Nat → State → State → Prop where
  | done (s : State) : codeReady s = false → DecodeRun 0 s s
  | next (n : Nat) (s s1 t : State) : codeReady s = true →
      exec (decodeCode s.ctx (extractedCode s)) (consumeCode s) = .next s1 →
      DecodeRun n s1 t → DecodeRun (n + 1) s t

/-- The outcome of a block run (70_reset_and_hazards.md R250). -/
structure BlockOutcome where
  status : Status
  cause : Cause
  faultCode : Code
  outCount : Count
  out : List Byte
  deriving DecidableEq, Repr

/-- The outcome at a terminal status; none before it (70_reset_and_hazards.md R250). -/
def blockOutcome (s : State) : Option BlockOutcome :=
  if s.status.isTerminal then
    some ⟨s.status, s.cause, s.faultCode, s.outCount,
      (List.range s.outCount.toNat).filterMap (Store.read s.out)⟩
  else none

end Sys2Proof.Machine
end

