-- ==== Sys2Proof/Certificates/Slice0/Obligations.lean ====
section
/-! DEFINITION. The statements about the model. Each docstring names the rules of spec/ it formalises. -/

open Sys2Proof Sys2Proof.Machine

/-! ## Encoding -/

/-- The three words 30_encoding.md R83 writes out decode to the commands it gives them. -/
def Obligations.SpelledWordsDecode : Prop :=
  decodeCommand 0x000200000004#48 = .ok (.start 2 4) ∧
  decodeCommand 0x4000000000A8#48 = .ok (.feed 0xA8) ∧
  decodeCommand 0x800000000000#48 = .ok .eod

/-- Command decoding (30_encoding.md R75): by fields, and by the match and mask of its table. -/
def Obligations.CommandsSelectedByMatchAndMask : Prop :=
  ∀ w : CommandWord,
    (w.extractLsb' 40 8 = 0x00#8 ↔ ∃ r n, decodeCommand w = .ok (.start r n)) ∧
    (w &&& 0xFF0000000000#48 = 0x000000000000#48 ↔ ∃ r n, decodeCommand w = .ok (.start r n)) ∧
    ((w.extractLsb' 40 8 = 0x40#8 ∧ w.extractLsb' 8 32 = 0#32) ↔ ∃ b, decodeCommand w = .ok (.feed b)) ∧
    (w &&& 0xFFFFFFFFFF00#48 = 0x400000000000#48 ↔ ∃ b, decodeCommand w = .ok (.feed b)) ∧
    (w = 0x800000000000#48 ↔ decodeCommand w = .ok .eod) ∧
    (w &&& 0xFFFFFFFFFFFF#48 = 0x800000000000#48 ↔ decodeCommand w = .ok .eod)

/-- Command operands (30_encoding.md R72, R73): START's `r = word[39:32]` and `n = word[31:0]`, FEED's `b = word[7:0]`. -/
def Obligations.CommandOperandsAreTheirFields : Prop :=
  ∀ w : CommandWord,
    (∀ r n, decodeCommand w = .ok (.start r n) → r = w.extractLsb' 32 8 ∧ n = w.extractLsb' 0 32) ∧
    (∀ b, decodeCommand w = .ok (.feed b) → b = w.extractLsb' 0 8)

/-- Decoding an encoded well-formed instruction gives it back, for every instruction (30_encoding.md R70, R75, R80). -/
def Obligations.DecodeOfEncode : Prop :=
  ∀ (x : CodeCtx) (i : Instr), i.wellFormed x = true → decode x (encode i) = .ok i

/-- A word that decodes is the encoding of what it decodes to (30_encoding.md R75). -/
def Obligations.EncodeOfDecode : Prop :=
  ∀ (x : CodeCtx) (e : Encoding) (i : Instr), decode x e = .ok i → encode i = e

/-- Reserved command words (30_encoding.md R76, 40_commands.md R104): exactly the words of R76's four bullets spell no
command, and between commands a step on one is refused. -/
def Obligations.ReservedWordsAreRefused : Prop :=
  ∀ w : CommandWord,
    (w.extractLsb' 46 2 = 3#2 ∨ w.extractLsb' 40 6 ≠ 0#6 ∨
      (w.extractLsb' 46 2 = 1#2 ∧ (w.extractLsb' 32 8 ≠ 0#8 ∨ w.extractLsb' 8 24 ≠ 0#24)) ∨
      (w.extractLsb' 46 2 = 2#2 ∧ (w.extractLsb' 32 8 ≠ 0#8 ∨ w.extractLsb' 0 32 ≠ 0#32)) ↔
      ∃ e, decodeCommand w = .error e) ∧
    (∀ e, decodeCommand w = .error e → ∀ (s : State) (rest : List HostAction),
      codeReady s = false → s.pending = .command w :: rest → step s = .refused (.reserved e))

/-- The class of a code (30_encoding.md R80, in the order of 42_code_dispatch.md R148): the first row whose condition holds. -/
def Obligations.CodeClassIsTheFirstRowThatHolds : Prop :=
  ∀ (x : CodeCtx) (c : Code),
    decodeCode x c =
      if c.toNat = 2 ^ x.rootSize.toNat + 1 then .codeEoi c
      else if x.nextFreeCode.toNat < c.toNat then .codeBeyond c
      else if c.toNat = 2 ^ x.rootSize.toNat then .codeClear c
      else if x.previousCode = none ∧ c.toNat = x.nextFreeCode.toNat then .codeFirstUndef c
      else if x.previousCode = none then .codeFirst c
      else if c.toNat = x.nextFreeCode.toNat then .codeKwkwk c
      else if x.nextFreeCode.toNat = 4096 then .codeKnownFull c
      else .codeKnown c

/-- Classification is total and exact (30_encoding.md R80): a code of `codeSize` bits is the encoding of one well-formed
instruction, the one the decoder reads. -/
def Obligations.EveryCodeHasExactlyOneClass : Prop :=
  ∀ (x : CodeCtx) (c : Code), x.nextFreeCode.toNat ≤ 4096 → c.toNat < 2 ^ x.codeSize.toNat →
    (decodeCode x c).wellFormed x = true ∧ encode (decodeCode x c) = .code c ∧
    ∀ i, i.wellFormed x = true → encode i = .code c → i = decodeCode x c

/-! ## Steps -/

/-- Between commands, a step runs the command its next word decodes to (40_commands.md R105, 70 R241; the list of the
host's actions is the model's, log 1). -/
def Obligations.StepRunsTheDecodedCommand : Prop :=
  ∀ (s : State) (w : CommandWord) (i : Instr) (rest : List HostAction),
    codeReady s = false → s.pending = .command w :: rest → decodeCommand w = .ok i →
    step s = exec i { s with pending := rest }

/-- Inside a decode loop, a step extracts the oldest `codeSize` bits and runs the class the decoder reads (41_code_stream.md
R121, R122; that such a state steps at all is the model's, log 9). -/
def Obligations.StepRunsTheNextCode : Prop :=
  ∀ s : State, codeReady s = true →
    step s = exec (decodeCode s.ctx (BitVec.ofNat 12 (s.acc.toNat % 2 ^ s.codeSize.toNat)))
      { s with acc := s.acc >>> s.codeSize.toNat, nbits := s.nbits - s.codeSize.setWidth 5 }

/-- Where a placed word runs (the model's, log 10): outside RUN, after `withFetchWord` the very next step runs exactly the
instruction the word decodes to: a command on the state itself; a code, in the class it has there, in the block that START 2
began, with nothing left in the accumulator. -/
def Obligations.PlacedWordRunsNext : Prop :=
  ∀ (s : State) (nbits w : Nat) (i : Instr), s.status ≠ .run → decodeTableWord nbits w = some i →
    (isCodeRow nbits = false → step (s.withFetchWord nbits w) = exec i s) ∧
    (isCodeRow nbits = true → ∃ t, step (s.withFetchWord nbits w) = exec i t ∧
      t.status = .run ∧ t.ctx = freshCtx ∧ t.acc = 0#32 ∧ t.nbits = 0#5 ∧ t.outCount = 0#32 ∧
      t.expected = 0xFFFFFFFF#32 ∧ t.out = s.out ∧ t.pending = s.pending)

/-- With no action left, a block in RUN is stuck and any other block waits unchanged (93 I14, 70 R231; log 2). -/
def Obligations.NoActionWaitsOrIsStuck : Prop :=
  ∀ s : State, codeReady s = false → s.pending = [] →
    (s.status = .run → step s = .fault .stuckInRun) ∧ (s.status ≠ .run → step s = .next s)

/-! ## Commands -/

/-- START, in every state (40_commands.md R100, 10_state.md R40's START columns): what it writes for any root size; for one in
`[2, 8]`, RUN, or COMPLETE when `n = 0`, with the dictionary reset and every other slot kept; for any other, CORRUPT with cause
BAD_ROOT_SIZE. What R40 leaves unspecified is not spoken of. -/
def Obligations.StartBeginsABlock : Prop :=
  ∀ (s : State) (r : Byte) (n : Count), ∃ t, exec (.start r n) s = .next t ∧
    t.rootSize = r ∧ t.expected = n ∧ t.outCount = 0#32 ∧ t.acc = 0#32 ∧ t.nbits = 0#5 ∧ t.sp = 0#13 ∧
    t.result = some t.status ∧ t.out = s.out ∧ t.pending = s.pending ∧ t.readData = s.readData ∧
    (2 ≤ r.toNat ∧ r.toNat ≤ 8 →
      t.status = (if n = 0#32 then .complete else .run) ∧ t.cause = .none ∧ t.faultCode = 0#12 ∧
      t.codeSize.toNat = r.toNat + 1 ∧ t.nextFreeCode.toNat = 2 ^ r.toNat + 2 ∧ t.previousCode = none ∧
      (∀ c, c < 2 ^ r.toNat →
        Store.read t.dictionary c = some ⟨none, BitVec.ofNat 8 c, BitVec.ofNat 8 c⟩) ∧
      (∀ c, 2 ^ r.toNat ≤ c → Store.read t.dictionary c = Store.read s.dictionary c) ∧
      t.freeTick = s.freeTick) ∧
    (¬ (2 ≤ r.toNat ∧ r.toNat ≤ 8) →
      t.status = .corrupt ∧ t.cause = .badRootSize ∧ t.faultCode = r.setWidth 12)

/-- Root-size validity (40_commands.md R101): START accepts `r` exactly when it is in `[2, 8]`; otherwise CORRUPT with cause
BAD_ROOT_SIZE and the root size as `faultCode`, and FEED and EOD then have no effect at all. `codeSize`, `nextFreeCode`,
`previousCode` and the dictionary are unspecified, and nothing is said of them. -/
def Obligations.StartAcceptsRootSizesTwoToEight : Prop :=
  ∀ (s t : State) (r : Byte) (n : Count), exec (.start r n) s = .next t →
    (t.status ≠ .corrupt ↔ 2 ≤ r.toNat ∧ r.toNat ≤ 8) ∧
    (¬ (2 ≤ r.toNat ∧ r.toNat ≤ 8) →
      t.status = .corrupt ∧ t.cause = .badRootSize ∧ t.faultCode = r.setWidth 12 ∧
      (∀ b, exec (.feed b) t = .next t) ∧ exec .eod t = .next t)

/-- FEED (40_commands.md R102, 41_code_stream.md R122). Outside RUN it changes nothing but the result port. In RUN, between
commands, the byte is appended, at most three codes are extracted and each is run as the instruction of its class, until no
whole code is left or the block has stopped; the status is returned. -/
def Obligations.FeedRunsItsCodes : Prop :=
  ∀ (s : State) (b : Byte),
    (s.status ≠ .run → exec (.feed b) s = .next { s with result := some s.status }) ∧
    (Inv s → s.status = .run → codeReady s = false →
      ∃ n t, n ≤ 3 ∧ DecodeRun n (appendByte b s) t ∧
        exec (.feed b) s = .next { t with result := some t.status })

/-- The pace of the bytes (41_code_stream.md R125): if a first byte runs `n` codes and leaves the block in RUN, and a second
one then runs `m`, then both bytes appended at once run the same `n + m` codes to the same state. A first byte that stops the
block is the case of `BitsAfterAStopChangeNothing`. -/
def Obligations.PaceOfBytesChangesNothing : Prop :=
  ∀ (s t u : State) (b b' : Byte) (n m : Nat), Inv s → s.status = .run → codeReady s = false →
    DecodeRun n (appendByte b s) t → t.status = .run → DecodeRun m (appendByte b' t) u →
    DecodeRun (n + m) (appendByte b' (appendByte b s)) u

/-- EOD (40_commands.md R103): TRUNCATED in RUN, no change in any other status, and the status is returned. -/
def Obligations.EodTruncatesARun : Prop :=
  ∀ s : State,
    (s.status = .run → exec .eod s = .next { s with status := .truncated, result := some .truncated }) ∧
    (s.status ≠ .run → exec .eod s = .next { s with result := some s.status })

/-! ## The code stream -/

/-- AppendByte (41_code_stream.md R120): the byte stands above the `nbits` occupied bits, no bit is lost, and the result
fits in 19 bits. -/
def Obligations.AppendBytePutsTheByteAbove : Prop :=
  ∀ (s : State) (b : Byte), s.acc.toNat < 2 ^ s.nbits.toNat → s.nbits.toNat ≤ 11 →
    ∃ t, appendByte b s = t ∧ t.acc.toNat = s.acc.toNat + b.toNat * 2 ^ s.nbits.toNat ∧
      t.nbits.toNat = s.nbits.toNat + 8 ∧ t.acc.toNat < 2 ^ t.nbits.toNat ∧ t.nbits.toNat ≤ 19 ∧
      t = { s with acc := t.acc, nbits := t.nbits }

/-- ExtractCode (41_code_stream.md R121): the code is the low `codeSize` bits, and they leave the accumulator. -/
def Obligations.ExtractTakesTheOldestBits : Prop :=
  ∀ s : State, s.codeSize.toNat ≤ 12 → s.codeSize.toNat ≤ s.nbits.toNat →
    (extractedCode s).toNat = s.acc.toNat % 2 ^ s.codeSize.toNat ∧
    (extractedCode s).toNat < 2 ^ s.codeSize.toNat ∧
    ∃ t, consumeCode s = t ∧ t.acc.toNat = s.acc.toNat / 2 ^ s.codeSize.toNat ∧
      t.nbits.toNat = s.nbits.toNat - s.codeSize.toNat ∧ t = { s with acc := t.acc, nbits := t.nbits }

/-- Bit order (20_memory.md R55): bit `j` of a code is the accumulator's bit `j`, the byte's bit `i` is accumulator bit
`nbits + i`, and after an extraction the next code starts at the bit that followed. -/
def Obligations.CodesArePackedLowBitFirst : Prop :=
  ∀ (s : State) (b : Byte),
    (∀ j, j < s.codeSize.toNat → j < 12 → (extractedCode s).getLsbD j = s.acc.getLsbD j) ∧
    (∀ j, (consumeCode s).acc.getLsbD j = s.acc.getLsbD (s.codeSize.toNat + j)) ∧
    (s.acc.toNat < 2 ^ s.nbits.toNat → s.nbits.toNat ≤ 11 →
      (∀ j, j < s.nbits.toNat → (appendByte b s).acc.getLsbD j = s.acc.getLsbD j) ∧
      (∀ i, i < 8 → (appendByte b s).acc.getLsbD (s.nbits.toNat + i) = b.getLsbD i))

/-! ## The code classes -/

/-- Class EOI (42_code_dispatch.md R140): `status` is EOI and nothing else changes. -/
def Obligations.EoiStopsTheBlock : Prop :=
  ∀ (s : State) (c : Code), exec (.codeEoi c) s = .next { s with status := .eoi }

/-- Classes BEYOND, FIRST_UNDEF and KNOWN_FULL (42_code_dispatch.md R141, R144, R147; 60_exceptions.md R203): CORRUPT with the
class's cause and the code, and nothing else changes. -/
def Obligations.CorruptClassesRecordTheCode : Prop :=
  ∀ (s : State) (c : Code),
    exec (.codeBeyond c) s = .next { s with status := .corrupt, cause := .codeBeyondNext, faultCode := c } ∧
    exec (.codeFirstUndef c) s = .next { s with status := .corrupt, cause := .firstCodeUndefined, faultCode := c } ∧
    exec (.codeKnownFull c) s = .next { s with status := .corrupt, cause := .tableFull, faultCode := c }

/-- Class CLEAR (42_code_dispatch.md R142, 43_dictionary.md R170, 10_state.md R41): the dictionary registers and the literal
slots are reset; every other slot and every other field is kept. -/
def Obligations.ClearResetsTheDictionary : Prop :=
  ∀ (s : State) (c : Code), 2 ≤ s.rootSize.toNat → s.rootSize.toNat ≤ 8 →
    ∃ t, exec (.codeClear c) s = .next t ∧
      t.codeSize.toNat = s.rootSize.toNat + 1 ∧ t.nextFreeCode.toNat = 2 ^ s.rootSize.toNat + 2 ∧
      t.previousCode = none ∧
      (∀ a, a < 2 ^ s.rootSize.toNat →
        Store.read t.dictionary a = some ⟨none, BitVec.ofNat 8 a, BitVec.ofNat 8 a⟩) ∧
      (∀ a, 2 ^ s.rootSize.toNat ≤ a → Store.read t.dictionary a = Store.read s.dictionary a) ∧
      t = { s with
        codeSize := t.codeSize, nextFreeCode := t.nextFreeCode, previousCode := t.previousCode
        dictionary := t.dictionary }

/-- Class FIRST in RUN (42_code_dispatch.md R143): the code is a literal, its one pixel is written, `previousCode` is the
code, no entry is added, and the count is checked. -/
def Obligations.FirstEmitsTheLiteral : Prop :=
  ∀ (s : State) (c : Code), Inv s → s.status = .run → (Instr.codeFirst c).wellFormed s.ctx = true →
    c.toNat < 2 ^ s.rootSize.toNat ∧
    ∃ t, exec (.codeFirst c) s = .next t ∧ Emitted [c.setWidth 8] s t ∧ t.previousCode = some c ∧
      CompletionChecked t ∧
      t = { s with
        status := t.status, out := t.out, outCount := t.outCount, previousCode := t.previousCode }

/-- Class KWKWK in RUN (42_code_dispatch.md R145): the entry `(previousCode, firstPixel[previousCode])` is added at slot
`nextFreeCode`, then the string of `previousCode` followed by its first pixel is written, `previousCode` is the code, and the
count is checked. -/
def Obligations.KwkwkDefinesThenEmits : Prop :=
  ∀ (s : State) (c : Code), Inv s → s.status = .run → (Instr.codeKwkwk c).wellFormed s.ctx = true →
    ∃ p q str t, s.previousCode = some p ∧ readSlot p s = some q ∧ stringOf s p = some str ∧
      exec (.codeKwkwk c) s = .next t ∧ EntryAdded ⟨some p, q.firstPixel, q.firstPixel⟩ s t ∧
      Emitted (str ++ [q.firstPixel]) s t ∧ t.previousCode = some c ∧ CompletionChecked t ∧
      t = { s with
        status := t.status, out := t.out, outCount := t.outCount, previousCode := t.previousCode
        dictionary := t.dictionary, nextFreeCode := t.nextFreeCode, codeSize := t.codeSize }

/-- Class KNOWN in RUN (42_code_dispatch.md R146): the string of the code is written, the entry
`(previousCode, firstPixel[code])` is added at slot `nextFreeCode`, `previousCode` is the code, and the count is checked. -/
def Obligations.KnownEmitsThenDefines : Prop :=
  ∀ (s : State) (c : Code), Inv s → s.status = .run → (Instr.codeKnown c).wellFormed s.ctx = true →
    ∃ p q e str t, s.previousCode = some p ∧ readSlot p s = some q ∧ readSlot c s = some e ∧
      stringOf s c = some str ∧ exec (.codeKnown c) s = .next t ∧
      EntryAdded ⟨some p, e.firstPixel, q.firstPixel⟩ s t ∧
      Emitted str s t ∧ t.previousCode = some c ∧ CompletionChecked t ∧
      t = { s with
        status := t.status, out := t.out, outCount := t.outCount, previousCode := t.previousCode
        dictionary := t.dictionary, nextFreeCode := t.nextFreeCode, codeSize := t.codeSize }

/-- `previousCode` (42_code_dispatch.md R148, first bullet, and its second): only FIRST, KWKWK and KNOWN write it, to the code
itself, and CLEAR, to none; EOI and the CORRUPT classes leave it. In every state. -/
def Obligations.PreviousCodeWriters : Prop :=
  ∀ (s t : State) (i : Instr), exec i s = .next t →
    match i with
    | .codeFirst c => t.previousCode = some c
    | .codeKwkwk c => t.previousCode = some c
    | .codeKnown c => t.previousCode = some c
    | .codeClear _ => t.previousCode = none
    | .codeEoi _ => t.previousCode = s.previousCode
    | .codeBeyond _ => t.previousCode = s.previousCode
    | .codeFirstUndef _ => t.previousCode = s.previousCode
    | .codeKnownFull _ => t.previousCode = s.previousCode
    | .start _ _ => True
    | .feed _ => True
    | .eod => t.previousCode = s.previousCode

/-! ## Dictionary and emission -/

/-- PutPixel (43_dictionary.md R176): one position and one count while `outCount < expected`, nothing after; so of a string the
first `expected - outCount` pixels are written and the rest discarded. -/
def Obligations.PutPixelStopsAtExpected : Prop :=
  ∀ (s : State) (v : Byte) (str : List Byte),
    (s.outCount.toNat < s.expected.toNat → putPixel v s =
      { s with out := Store.write s.out s.outCount.toNat v, outCount := s.outCount + 1#32 }) ∧
    (s.expected.toNat ≤ s.outCount.toNat → putPixel v s = s) ∧
    (s.outCount.toNat ≤ s.expected.toNat → Emitted str s (putString str s))

/-- Emit (43_dictionary.md R175, R176): the pixel string, oldest first, cut at `expected`; the stack is empty again, and
nothing else changes. In every state where the code has a string of at most 4096 pixels. -/
def Obligations.EmitWritesThePixelString : Prop :=
  ∀ (s : State) (c : Code) (str : List Byte), stringOf s c = some str → s.outCount.toNat ≤ s.expected.toNat →
    ∃ t, emit c s = .next t ∧ Emitted str s t ∧ t.sp = 0#13 ∧
      t = { s with out := t.out, outCount := t.outCount, sp := t.sp, stack := t.stack }

/-- The strings of live codes (10_state.md R34, 43_dictionary.md R175, R178): a literal's is the literal; every string has
between 1 and 4091 pixels, at most `c - Clear` for a code above EOI, begins with `firstPixel`, and holds values below Clear
only. -/
def Obligations.LiveCodesHaveShortStrings : Prop :=
  ∀ (s : State) (c : Code), Inv s → s.status = .run → c.toNat < s.nextFreeCode.toNat →
    c.toNat ≠ 2 ^ s.rootSize.toNat → c.toNat ≠ 2 ^ s.rootSize.toNat + 1 →
    ∃ str e, stringOf s c = some str ∧ readSlot c s = some e ∧ str.head? = some e.firstPixel ∧
      1 ≤ str.length ∧ str.length ≤ 4091 ∧
      (c.toNat < 2 ^ s.rootSize.toNat → str = [c.setWidth 8]) ∧
      (2 ^ s.rootSize.toNat < c.toNat → str.length ≤ c.toNat - 2 ^ s.rootSize.toNat) ∧
      ∀ v ∈ str, v.toNat < 2 ^ s.rootSize.toNat

/-- AddEntry and GrowCodeSize (43_dictionary.md R172, R173), under R172's precondition: the new slot is
`(some p, px, firstPixel[p])`, `nextFreeCode` is one more, the width grows exactly at `2^codeSize` below 12, and nothing else
changes. -/
def Obligations.AddEntryDefinesTheNextSlot : Prop :=
  ∀ (s : State) (p : Code) (px : Byte) (q : Slot), s.nextFreeCode.toNat < 4096 → readSlot p s = some q →
    ∃ t, addEntry p px s = .next t ∧ EntryAdded ⟨some p, px, q.firstPixel⟩ s t ∧
      t = { s with dictionary := t.dictionary, nextFreeCode := t.nextFreeCode, codeSize := t.codeSize }

/-- The width schedule (30_encoding.md R79) after every step from the invariants that leaves the block in RUN, a command or one
code: width `k` while `nextFreeCode` is in `[2^(k-1), 2^k - 1]`, for `rootSize + 1 <= k <= 11`, and 12 from 2048 on. -/
def Obligations.WidthFollowsNextFreeCode : Prop :=
  ∀ s t : State, Inv s → step s = .next t → t.status = .run →
    t.codeSize.toNat = min 12 (Nat.log2 t.nextFreeCode.toNat + 1) ∧
    (∀ k, t.rootSize.toNat + 1 ≤ k → k ≤ 11 →
      2 ^ (k - 1) ≤ t.nextFreeCode.toNat → t.nextFreeCode.toNat ≤ 2 ^ k - 1 → t.codeSize.toNat = k) ∧
    (2048 ≤ t.nextFreeCode.toNat → t.codeSize.toNat = 12)

/-- Slots Clear and EOI (43_dictionary.md R171): no command writes them between commands, and no code class does in a running
block, whatever the accumulator holds; START is judged by its own root size. -/
def Obligations.ReservedSlotsAreNeverWritten : Prop :=
  ∀ (s t : State) (i : Instr), Inv s →
    ((s.status = .run ∧ ∃ c, encode i = .code c) ∨ (codeReady s = false ∧ ∃ w, encode i = .command w)) →
    exec i s = .next t → 2 ≤ t.rootSize.toNat → t.rootSize.toNat ≤ 8 →
    Store.read t.dictionary (2 ^ t.rootSize.toNat) = Store.read s.dictionary (2 ^ t.rootSize.toNat) ∧
    Store.read t.dictionary (2 ^ t.rootSize.toNat + 1) = Store.read s.dictionary (2 ^ t.rootSize.toNat + 1)

/-- Slots no rule reads (10_state.md R33): two states that differ only in such slots take the same step, and still differ
only in such slots. -/
def Obligations.StaleSlotsChangeNoResult : Prop :=
  ∀ s s' t : State, Inv s → Inv s' → codeReady s = false → SameLiveSlots s s' → step s = .next t →
    ∃ t', step s' = .next t' ∧ SameLiveSlots t t'

/-! ## Output -/

/-- The output buffer (20_memory.md R53): every instruction but START leaves the positions below `outCount` as they are,
writes only positions from `outCount` up to its new `outCount`, and never past `expected`; START writes no position. In every
state. -/
def Obligations.OutputIsWrittenInOrderOnce : Prop :=
  ∀ (s t : State) (i : Instr), exec i s = .next t →
    match i with
    | .start _ _ => t.out = s.out
    | _ => s.outCount.toNat ≤ t.outCount.toNat ∧ t.expected = s.expected ∧
        (s.outCount.toNat ≤ s.expected.toNat → t.outCount.toNat ≤ s.expected.toNat) ∧
        ∀ a, (a < s.outCount.toNat ∨ t.outCount.toNat ≤ a) → Store.read t.out a = Store.read s.out a

/-- Storage keeps its canonical form (logs 5 to 7): every instruction leaves the output buffer, the dictionary and the stack
in it. -/
def Obligations.CanonicalFormsAreKept : Prop :=
  ∀ (s t : State) (i : Instr), exec i s = .next t →
    Memory.wf s.out → Store.wf s.dictionary → Memory.wf s.stack →
    Memory.wf t.out ∧ Store.wf t.dictionary ∧ Memory.wf t.stack

/-- The outcome of a block run (70_reset_and_hazards.md R250): none before a terminal status; at one, `status`, `cause`,
`faultCode`, `outCount`, and the pixels of positions `0` to `outCount - 1` in order. -/
def Obligations.BlockOutcomeHoldsTheOutput : Prop :=
  ∀ s : State, Inv s →
    (s.status = .idle ∨ s.status = .run → blockOutcome s = none) ∧
    (s.status ≠ .idle → s.status ≠ .run →
      ∃ px, blockOutcome s = some ⟨s.status, s.cause, s.faultCode, s.outCount, px⟩ ∧
        px.length = s.outCount.toNat ∧ ∀ i, i < s.outCount.toNat → px[i]? = Store.read s.out i)

/-! ## Frames -/

/-- What the code classes leave alone, in every state (42_code_dispatch.md R140 to R147, R149): every class keeps `rootSize`,
`expected`, `acc`, `nbits`, the ports and the host's actions; the classes that emit nothing keep the output; those that add no
entry keep the dictionary registers; the accepted ones keep the stop registers. -/
def Obligations.CodeClassFrames : Prop :=
  ∀ (s t : State) (i : Instr) (c : Code), encode i = .code c → exec i s = .next t →
    (t.rootSize = s.rootSize ∧ t.expected = s.expected ∧ t.acc = s.acc ∧ t.nbits = s.nbits ∧
      t.pending = s.pending ∧ t.result = s.result ∧ t.readData = s.readData ∧ t.freeTick = s.freeTick) ∧
    (i = .codeEoi c ∨ i = .codeBeyond c ∨ i = .codeFirstUndef c ∨ i = .codeKnownFull c ∨ i = .codeClear c →
      t.out = s.out ∧ t.outCount = s.outCount ∧ t.sp = s.sp ∧ t.stack = s.stack) ∧
    (i = .codeEoi c ∨ i = .codeBeyond c ∨ i = .codeFirstUndef c ∨ i = .codeKnownFull c ∨ i = .codeFirst c →
      t.dictionary = s.dictionary ∧ t.nextFreeCode = s.nextFreeCode ∧ t.codeSize = s.codeSize) ∧
    (i = .codeClear c ∨ i = .codeFirst c ∨ i = .codeKwkwk c ∨ i = .codeKnown c →
      t.cause = s.cause ∧ t.faultCode = s.faultCode) ∧
    (i = .codeClear c → t.status = s.status)

/-- What the commands leave alone, in every state (40_commands.md R100 to R103): no command touches the host's actions or the
host's last read; FEED and EOD keep `rootSize` and `expected`; FEED keeps the free-value counter. -/
def Obligations.CommandFrames : Prop :=
  ∀ (s t : State),
    (∀ r n, exec (.start r n) s = .next t →
      t.out = s.out ∧ t.pending = s.pending ∧ t.readData = s.readData) ∧
    (∀ b, exec (.feed b) s = .next t →
      t.rootSize = s.rootSize ∧ t.expected = s.expected ∧ t.pending = s.pending ∧ t.readData = s.readData ∧
      t.freeTick = s.freeTick) ∧
    (exec .eod s = .next t → t = { s with status := t.status, result := t.result })

/-! ## Stops -/

/-- Terminal statuses (60_exceptions.md R200): `done` is high in exactly these; in one, unless the host's action is a START
word or hardware reset, a step changes no register, slot or output position: only the host's list of actions, the result port,
the host's last read, and the model's free-value counter (log 4). -/
def Obligations.TerminalStatusIsFrozen : Prop :=
  ∀ s : State,
    let terminal : Prop := s.status = .complete ∨ s.status = .eoi ∨ s.status = .corrupt ∨ s.status = .truncated
    (s.done = true ↔ terminal) ∧
    ∀ t, terminal → step s = .next t →
      t = { s with
        pending := t.pending, result := t.result, readData := t.readData, freeTick := t.freeTick } ∨
      (∃ rest, s.pending = .hardReset :: rest) ∨
      (∃ w rest r n, s.pending = .command w :: rest ∧ decodeCommand w = .ok (.start r n))

/-- `cause` and `faultCode` (10_state.md R22, R23): that `cause` is not NONE exactly when `status` is CORRUPT, and `faultCode`
0 in every other status, holds at reset and is kept by every step. -/
def Obligations.CauseExactlyWhenCorrupt : Prop :=
  ((State.reset.cause ≠ .none ↔ State.reset.status = .corrupt) ∧ State.reset.faultCode = 0#12) ∧
  ∀ s t : State, (s.cause ≠ .none ↔ s.status = .corrupt) → (s.status ≠ .corrupt → s.faultCode = 0#12) →
    step s = .next t →
    (t.cause ≠ .none ↔ t.status = .corrupt) ∧ (t.status ≠ .corrupt → t.faultCode = 0#12)

/-- The encodings of `status` and `cause` (10_state.md R21, R22). -/
def Obligations.StatusAndCauseEncodings : Prop :=
  (Status.idle.bits = 0#3 ∧ Status.run.bits = 1#3 ∧ Status.complete.bits = 2#3 ∧ Status.eoi.bits = 3#3 ∧
    Status.corrupt.bits = 4#3 ∧ Status.truncated.bits = 5#3) ∧
  (Cause.none.bits = 0#3 ∧ Cause.codeBeyondNext.bits = 1#3 ∧ Cause.firstCodeUndefined.bits = 2#3 ∧
    Cause.tableFull.bits = 3#3 ∧ Cause.badRootSize.bits = 4#3)

/-! ## Invariants -/

/-- The invariants hold at reset. -/
def Obligations.ResetHoldsTheInvariants : Prop :=
  Inv State.reset ∧ codeReady State.reset = false

/-- Every step keeps the invariants of Safety's `Inv`: a step that takes a host action between two commands, and a step that
runs one code inside a decode loop (10_state.md R32, 30_encoding.md R79: between any two code dispatches). They are 10_state.md
R22, R23, R24, R26, R27, R28, R29, R30, R32, R34; 30_encoding.md R79; 43_dictionary.md R178; 60_exceptions.md R202, R204, R205.
That a state inside a decode loop takes a step of its own is the model's (log 9). -/
def Obligations.EveryStepKeepsTheInvariants : Prop :=
  ∀ s t : State, Inv s → step s = .next t → Inv t

/-- Between commands a running block holds less than one code (10_state.md R30): a step starts and ends so. -/
def Obligations.EveryStepEndsBetweenCommands : Prop :=
  ∀ s t : State, Inv s → codeReady s = false → step s = .next t →
    codeReady t = false ∧ (t.status = .run → t.nbits.toNat < t.codeSize.toNat)

/-- No other stop (60_exceptions.md R201, 70 R248): from a state that holds the invariants a step goes on, unless the host
issues a reserved word, reads a register that has no defined answer, reads an output position outside the buffer, or has nothing
more to do with a block in RUN. That the idle host is a fault `stuckInRun` (93 I14) and any other wait a step is the model's (log
2); so is the fault of a read at or above `expected` (log 7). -/
def Obligations.NothingElseStopsTheBlock : Prop :=
  ∀ s : State, Inv s →
    (∃ t, step s = .next t) ∨
    (∃ e, step s = .refused (.reserved e) ∧ ∃ w rest, s.pending = .command w :: rest ∧ decodeCommand w = .error e) ∨
    (step s = .fault .stuckInRun ∧ s.status = .run ∧ s.pending = []) ∨
    (step s = .fault .unspecifiedRegister ∧ ∃ r rest, s.pending = .readReg r :: rest ∧ isSpecified s r = false) ∨
    (step s = .fault .outputOutOfRange ∧
      ∃ i rest, s.pending = .readOut i :: rest ∧ s.expected.toNat ≤ i.toNat)

/-! ## Hardware reset and the host's reads -/

/-- Hardware reset (70_reset_and_hazards.md R230, 10_state.md R40's first column): the registers it gives a value, in
State.reset and after the host asserts it between commands; it writes nothing to the output buffer. The registers it leaves
unspecified are not spoken of. That reset is a host action taken between two commands, and that the host's later actions stand,
is the model's (log 15). -/
def Obligations.HardwareResetValues : Prop :=
  (State.reset.status = .idle ∧ State.reset.cause = .none ∧ State.reset.faultCode = 0#12 ∧
    State.reset.expected = 0#32 ∧ State.reset.outCount = 0#32 ∧ State.reset.acc = 0#32 ∧ State.reset.nbits = 0#5 ∧
    State.reset.sp = 0#13) ∧
  ∀ (s : State) (rest : List HostAction), codeReady s = false → s.pending = .hardReset :: rest →
    ∃ t, step s = .next t ∧ t.status = .idle ∧ t.cause = .none ∧ t.faultCode = 0#12 ∧ t.expected = 0#32 ∧
      t.outCount = 0#32 ∧ t.acc = 0#32 ∧ t.nbits = 0#5 ∧ t.sp = 0#13 ∧ t.out = s.out ∧ t.pending = rest

/-- The read port (10_state.md R35, R40): a read answers the register's value (its format is the model's, log 12) and changes
nothing of the block; a read of a register that R40 leaves unspecified faults. -/
def Obligations.ReadPortAnswersSpecifiedRegisters : Prop :=
  ∀ (s : State) (r : ReadReg) (rest : List HostAction), codeReady s = false → s.pending = .readReg r :: rest →
    let unspecified : Prop :=
      (r = .rootSize ∧ s.status = .idle) ∨
      ((r = .codeSize ∨ r = .nextFreeCode ∨ r = .previousCode) ∧
        (s.status = .idle ∨ (s.status = .corrupt ∧ s.cause = .badRootSize)))
    (unspecified → step s = .fault .unspecifiedRegister) ∧
    (¬ unspecified → step s = .next { s with
      pending := rest
      readData := some (match r with
        | .status => .register (s.status.bits.setWidth 32)
        | .cause => .register (s.cause.bits.setWidth 32)
        | .faultCode => .register (s.faultCode.setWidth 32)
        | .outCount => .register s.outCount
        | .expected => .register s.expected
        | .rootSize => .register (s.rootSize.setWidth 32)
        | .codeSize => .register (s.codeSize.setWidth 32)
        | .nextFreeCode => .register (s.nextFreeCode.setWidth 32)
        | .previousCode => .code s.previousCode
        | .nbits => .register (s.nbits.setWidth 32)) })

/-- Output positions (40_commands.md R105, 70_reset_and_hazards.md R243): between commands every position below `outCount`
answers the pixel written there, a value below Clear; a position from there up to `expected` answers the host's own contents,
whatever the free value is; at or above `expected` there is no position, and the read faults (the model's, log 7). -/
def Obligations.OutputPositionsBelowCountAreReadable : Prop :=
  ∀ (s : State) (i : Count) (rest : List HostAction), Inv s → codeReady s = false →
    s.pending = .readOut i :: rest →
    (i.toNat < s.outCount.toNat → ∃ v, Store.read s.out i.toNat = some v ∧ v.toNat < 2 ^ s.rootSize.toNat ∧
      step s = .next { s with pending := rest, readData := some (.pixel v) }) ∧
    (s.outCount.toNat ≤ i.toNat → i.toNat < s.expected.toNat → ∃ v,
      step s = .next { s with
        pending := rest, readData := some (.pixel v), freeTick := s.freeTick + 1 }) ∧
    (s.expected.toNat ≤ i.toNat → step s = .fault .outputOutOfRange)

/-! ## The assembler -/

/-- `CODES` (30_encoding.md R85): the code lists of 95_test_vectors.md S1 and P3 are packed to the bytes given there, and the
list `4, 0, 7, 0`, which goes on past a BEYOND code, is refused. -/
def Obligations.WorkedExampleIsPacked : Prop :=
  codesBytes 2 [4, 0, 1, 0, 1, 4, 5] = some [0x44, 0x10, 0x54] ∧
  codesBytes 3 [8, 1, 2, 3, 4, 5, 6, 7, 10, 16, 8, 2, 2, 10, 12, 9] =
    some [0x18, 0x32, 0x54, 0x76, 0x0A, 0x22, 0x11, 0xE5, 0x04] ∧
  codesBytes 2 [4, 0, 7, 0] = none

/-- The lines 30_encoding.md R83 writes out, and the pseudo-instructions of R84 and R85 on 95_test_vectors.md S1's bytes and
codes, assemble to the words the spec gives. -/
def Obligations.SpelledLinesAssemble : Prop :=
  assemble ["START 2, 4".toList, "FEED 0xA8 ; one byte".toList, "EOD".toList] =
    some [0x000200000004#48, 0x4000000000A8#48, 0x800000000000#48] ∧
  assemble ["FEEDS 0x44, 0x10, 0x54".toList] =
    some [0x400000000044#48, 0x400000000010#48, 0x400000000054#48] ∧
  assemble ["CODES 2: 4, 0, 1, 0, 1, 4, 5".toList] =
    some [0x400000000044#48, 0x400000000010#48, 0x400000000054#48]

/-- The packer's widths are the machine's (30_encoding.md R78, R85): where a code of a running block goes on, the registers
the packer packs the next code with are the machine's; where the packer says the code stops the block, it does. -/
def Obligations.PackerFollowsTheMachine : Prop :=
  ∀ (s t : State) (c : Code), Inv s → s.status = .run → exec (decodeCode s.ctx c) s = .next t →
    (∀ y, nextCtx s.ctx (decodeCode s.ctx c) = some y → t.ctx = y) ∧
    (nextCtx s.ctx (decodeCode s.ctx c) = none → t.status = .eoi ∨ t.status = .corrupt)

/-! ## A byte that stops the block -/

/-- Bits after a stop (41_code_stream.md R123, R124, R125): if a first byte runs `n` codes and the last of them stops the block,
then with a second byte already in the accumulator the same `n` codes run and nothing but the bits left over differs. -/
def Obligations.BitsAfterAStopChangeNothing : Prop :=
  ∀ (s t : State) (b b' : Byte) (n : Nat), Inv s → s.status = .run → codeReady s = false →
    DecodeRun n (appendByte b s) t → t.status ≠ .run →
    ∃ u, DecodeRun n (appendByte b' (appendByte b s)) u ∧ u = { t with acc := u.acc, nbits := u.nbits }
end

