-- ==== Sys2Proof/Laws/Store.lean ====
section
/-! SUPPORT. The laws of the sparse storage: read after write, read after erase, and the canonical form, which every
operation keeps. -/

namespace Sys2Proof.Machine

variable {α : Type}

@[simp] theorem Store.read_nil (a : Nat) : Store.read ([] : List (Nat × α)) a = none := rfl

@[simp] theorem Store.wf_nil : Store.wf ([] : List (Nat × α)) := List.Pairwise.nil

@[simp] theorem Store.read_write_same (d : List (Nat × α)) (a : Nat) (v : α) :
    Store.read (Store.write d a v) a = some v := by
  induction d with
  | nil => simp [Store.write, Store.read]
  | cons kv rest ih =>
    obtain ⟨k, w⟩ := kv
    unfold Store.write
    split
    · simp [Store.read]
    · split
      · simp [Store.read]
      · next h => simp [Store.read, h, ih]

@[simp] theorem Store.read_write_other (d : List (Nat × α)) {a b : Nat} (v : α) (h : b ≠ a) :
    Store.read (Store.write d a v) b = Store.read d b := by
  induction d with
  | nil => simp [Store.write, Store.read, h]
  | cons kv rest ih =>
    obtain ⟨k, w⟩ := kv
    unfold Store.write
    split
    · simp [Store.read, h]
    · split
      · next hk => subst hk; simp [Store.read, h]
      · simp only [Store.read, ih]

theorem Store.read_write (d : List (Nat × α)) (a b : Nat) (v : α) :
    Store.read (Store.write d a v) b = if b = a then some v else Store.read d b := by
  split
  · next h => subst h; simp
  · next h => simp [h]

/-- An index below every listed one holds no value. -/
theorem Store.read_below (d : List (Nat × α)) (a : Nat) (h : ∀ kv ∈ d, a < kv.1) : Store.read d a = none := by
  induction d with
  | nil => rfl
  | cons kv rest ih =>
    have h1 := h kv (by simp)
    have : a ≠ kv.1 := by omega
    simp only [Store.read, this, if_false]
    exact ih fun x hx => h x (by simp [hx])

theorem Store.mem_write {d : List (Nat × α)} {a : Nat} {v : α} {x : Nat × α} (h : x ∈ Store.write d a v) :
    x = (a, v) ∨ x ∈ d := by
  induction d with
  | nil => simpa [Store.write] using h
  | cons kv rest ih =>
    obtain ⟨k, w⟩ := kv
    unfold Store.write at h
    split at h
    · simpa using h
    · split at h
      · rcases List.mem_cons.1 h with h | h
        · exact .inl h
        · exact .inr (by simp [h])
      · rcases List.mem_cons.1 h with h | h
        · exact .inr (by simp [h])
        · rcases ih h with h | h
          · exact .inl h
          · exact .inr (by simp [h])

theorem Store.write_wf {d : List (Nat × α)} (a : Nat) (v : α) (h : Store.wf d) : Store.wf (Store.write d a v) := by
  induction d with
  | nil => exact List.pairwise_singleton _ _
  | cons kv rest ih =>
    obtain ⟨k, w⟩ := kv
    obtain ⟨h1, h2⟩ := List.pairwise_cons.1 h
    unfold Store.write
    split
    · next hlt =>
      refine List.pairwise_cons.2 ⟨?_, h⟩
      intro x hx
      rcases List.mem_cons.1 hx with rfl | hx
      · exact hlt
      · exact Nat.lt_trans hlt (h1 x hx)
    · split
      · next heq => subst heq; exact List.pairwise_cons.2 ⟨h1, h2⟩
      · refine List.pairwise_cons.2 ⟨?_, ih h2⟩
        intro x hx
        rcases Store.mem_write hx with rfl | hx
        · show k < a; omega
        · exact h1 x hx

theorem Store.erase_sublist (d : List (Nat × α)) (a : Nat) : (Store.erase d a).Sublist d := by
  induction d with
  | nil => exact List.Sublist.slnil
  | cons kv rest ih =>
    obtain ⟨k, w⟩ := kv
    unfold Store.erase
    split
    · exact List.sublist_cons_self _ _
    · exact ih.cons_cons _

theorem Store.erase_wf {d : List (Nat × α)} (a : Nat) (h : Store.wf d) : Store.wf (Store.erase d a) :=
  h.sublist (Store.erase_sublist d a)

theorem Store.read_erase_other (d : List (Nat × α)) {a b : Nat} (h : b ≠ a) :
    Store.read (Store.erase d a) b = Store.read d b := by
  induction d with
  | nil => rfl
  | cons kv rest ih =>
    obtain ⟨k, w⟩ := kv
    unfold Store.erase
    split
    · next hk => subst hk; simp [Store.read, h]
    · simp only [Store.read, ih]

theorem Store.read_erase_same {d : List (Nat × α)} (a : Nat) (h : Store.wf d) :
    Store.read (Store.erase d a) a = none := by
  induction d with
  | nil => rfl
  | cons kv rest ih =>
    obtain ⟨k, w⟩ := kv
    obtain ⟨h1, h2⟩ := List.pairwise_cons.1 h
    unfold Store.erase
    split
    · next hk => subst hk; exact Store.read_below rest _ fun x hx => h1 x hx
    · next hk => simp only [Store.read, hk, if_false, ih h2]

/-- Erasing the last index written gives back the store before. -/
theorem Store.erase_write_end (d : List (Nat × α)) (a : Nat) (v : α) (h : ∀ x ∈ d, x.1 < a) :
    Store.erase (Store.write d a v) a = d := by
  induction d with
  | nil => simp [Store.write, Store.erase]
  | cons kv rest ih =>
    obtain ⟨k, w⟩ := kv
    have h1 : k < a := h (k, w) (by simp)
    have h2 : ¬ a < k := by omega
    have h3 : ¬ a = k := by omega
    simp only [Store.write, h2, h3, if_false, Store.erase]
    rw [ih fun x hx => h x (by simp [hx])]

end Sys2Proof.Machine
end

