-- ==== Sys2Proof/Laws/State.lean ====
section
/-! SUPPORT. The small lemmas of the operations on State: one per field and operation, so that no proof unfolds a record
update. -/

namespace Sys2Proof.Machine

variable (s : State)

/-! ### raiseCorrupt -/

@[simp] theorem raiseCorrupt_status (k : Cause) (v : Code) : (raiseCorrupt k v s).status = .corrupt := rfl
@[simp] theorem raiseCorrupt_cause (k : Cause) (v : Code) : (raiseCorrupt k v s).cause = k := rfl
@[simp] theorem raiseCorrupt_faultCode (k : Cause) (v : Code) : (raiseCorrupt k v s).faultCode = v := rfl
@[simp] theorem raiseCorrupt_rootSize (k : Cause) (v : Code) : (raiseCorrupt k v s).rootSize = s.rootSize := rfl
@[simp] theorem raiseCorrupt_expected (k : Cause) (v : Code) : (raiseCorrupt k v s).expected = s.expected := rfl
@[simp] theorem raiseCorrupt_outCount (k : Cause) (v : Code) : (raiseCorrupt k v s).outCount = s.outCount := rfl
@[simp] theorem raiseCorrupt_codeSize (k : Cause) (v : Code) : (raiseCorrupt k v s).codeSize = s.codeSize := rfl
@[simp] theorem raiseCorrupt_nextFreeCode (k : Cause) (v : Code) : (raiseCorrupt k v s).nextFreeCode = s.nextFreeCode := rfl
@[simp] theorem raiseCorrupt_previousCode (k : Cause) (v : Code) : (raiseCorrupt k v s).previousCode = s.previousCode := rfl
@[simp] theorem raiseCorrupt_acc (k : Cause) (v : Code) : (raiseCorrupt k v s).acc = s.acc := rfl
@[simp] theorem raiseCorrupt_nbits (k : Cause) (v : Code) : (raiseCorrupt k v s).nbits = s.nbits := rfl
@[simp] theorem raiseCorrupt_dictionary (k : Cause) (v : Code) : (raiseCorrupt k v s).dictionary = s.dictionary := rfl
@[simp] theorem raiseCorrupt_stack (k : Cause) (v : Code) : (raiseCorrupt k v s).stack = s.stack := rfl
@[simp] theorem raiseCorrupt_sp (k : Cause) (v : Code) : (raiseCorrupt k v s).sp = s.sp := rfl
@[simp] theorem raiseCorrupt_out (k : Cause) (v : Code) : (raiseCorrupt k v s).out = s.out := rfl
@[simp] theorem raiseCorrupt_pending (k : Cause) (v : Code) : (raiseCorrupt k v s).pending = s.pending := rfl
@[simp] theorem raiseCorrupt_result (k : Cause) (v : Code) : (raiseCorrupt k v s).result = s.result := rfl
@[simp] theorem raiseCorrupt_readData (k : Cause) (v : Code) : (raiseCorrupt k v s).readData = s.readData := rfl
@[simp] theorem raiseCorrupt_freeTick (k : Cause) (v : Code) : (raiseCorrupt k v s).freeTick = s.freeTick := rfl

/-! ### beginBlock -/

@[simp] theorem beginBlock_status (r : Byte) (n : Count) : (beginBlock r n s).status = .run := rfl
@[simp] theorem beginBlock_cause (r : Byte) (n : Count) : (beginBlock r n s).cause = .none := rfl
@[simp] theorem beginBlock_faultCode (r : Byte) (n : Count) : (beginBlock r n s).faultCode = 0#12 := rfl
@[simp] theorem beginBlock_rootSize (r : Byte) (n : Count) : (beginBlock r n s).rootSize = r := rfl
@[simp] theorem beginBlock_expected (r : Byte) (n : Count) : (beginBlock r n s).expected = n := rfl
@[simp] theorem beginBlock_outCount (r : Byte) (n : Count) : (beginBlock r n s).outCount = 0#32 := rfl
@[simp] theorem beginBlock_codeSize (r : Byte) (n : Count) : (beginBlock r n s).codeSize = s.codeSize := rfl
@[simp] theorem beginBlock_nextFreeCode (r : Byte) (n : Count) : (beginBlock r n s).nextFreeCode = s.nextFreeCode := rfl
@[simp] theorem beginBlock_previousCode (r : Byte) (n : Count) : (beginBlock r n s).previousCode = s.previousCode := rfl
@[simp] theorem beginBlock_acc (r : Byte) (n : Count) : (beginBlock r n s).acc = 0#32 := rfl
@[simp] theorem beginBlock_nbits (r : Byte) (n : Count) : (beginBlock r n s).nbits = 0#5 := rfl
@[simp] theorem beginBlock_dictionary (r : Byte) (n : Count) : (beginBlock r n s).dictionary = s.dictionary := rfl
@[simp] theorem beginBlock_stack (r : Byte) (n : Count) : (beginBlock r n s).stack = [] := rfl
@[simp] theorem beginBlock_sp (r : Byte) (n : Count) : (beginBlock r n s).sp = 0#13 := rfl
@[simp] theorem beginBlock_out (r : Byte) (n : Count) : (beginBlock r n s).out = s.out := rfl
@[simp] theorem beginBlock_pending (r : Byte) (n : Count) : (beginBlock r n s).pending = s.pending := rfl
@[simp] theorem beginBlock_result (r : Byte) (n : Count) : (beginBlock r n s).result = s.result := rfl
@[simp] theorem beginBlock_readData (r : Byte) (n : Count) : (beginBlock r n s).readData = s.readData := rfl
@[simp] theorem beginBlock_freeTick (r : Byte) (n : Count) : (beginBlock r n s).freeTick = s.freeTick := rfl

/-! ### hardReset -/

@[simp] theorem hardReset_status : (hardReset s).status = .idle := rfl
@[simp] theorem hardReset_cause : (hardReset s).cause = .none := rfl
@[simp] theorem hardReset_faultCode : (hardReset s).faultCode = 0#12 := rfl
@[simp] theorem hardReset_rootSize : (hardReset s).rootSize = 0#8 := rfl
@[simp] theorem hardReset_expected : (hardReset s).expected = 0#32 := rfl
@[simp] theorem hardReset_outCount : (hardReset s).outCount = 0#32 := rfl
@[simp] theorem hardReset_codeSize : (hardReset s).codeSize = 0#4 := rfl
@[simp] theorem hardReset_nextFreeCode : (hardReset s).nextFreeCode = 0#13 := rfl
@[simp] theorem hardReset_previousCode : (hardReset s).previousCode = none := rfl
@[simp] theorem hardReset_acc : (hardReset s).acc = 0#32 := rfl
@[simp] theorem hardReset_nbits : (hardReset s).nbits = 0#5 := rfl
@[simp] theorem hardReset_dictionary : (hardReset s).dictionary = [] := rfl
@[simp] theorem hardReset_stack : (hardReset s).stack = [] := rfl
@[simp] theorem hardReset_sp : (hardReset s).sp = 0#13 := rfl
@[simp] theorem hardReset_out : (hardReset s).out = s.out := rfl
@[simp] theorem hardReset_pending : (hardReset s).pending = s.pending := rfl
@[simp] theorem hardReset_result : (hardReset s).result = none := rfl
@[simp] theorem hardReset_readData : (hardReset s).readData = none := rfl
@[simp] theorem hardReset_freeTick : (hardReset s).freeTick = s.freeTick := rfl

/-! ### loseDictionary -/

@[simp] theorem loseDictionary_status : (loseDictionary s).status = s.status := rfl
@[simp] theorem loseDictionary_cause : (loseDictionary s).cause = s.cause := rfl
@[simp] theorem loseDictionary_faultCode : (loseDictionary s).faultCode = s.faultCode := rfl
@[simp] theorem loseDictionary_rootSize : (loseDictionary s).rootSize = s.rootSize := rfl
@[simp] theorem loseDictionary_expected : (loseDictionary s).expected = s.expected := rfl
@[simp] theorem loseDictionary_outCount : (loseDictionary s).outCount = s.outCount := rfl
@[simp] theorem loseDictionary_codeSize : (loseDictionary s).codeSize = Config.freeCodeSize s.freeTick := rfl
@[simp] theorem loseDictionary_nextFreeCode : (loseDictionary s).nextFreeCode = Config.freeNextFreeCode s.freeTick := rfl
@[simp] theorem loseDictionary_previousCode : (loseDictionary s).previousCode = Config.freePreviousCode s.freeTick := rfl
@[simp] theorem loseDictionary_acc : (loseDictionary s).acc = s.acc := rfl
@[simp] theorem loseDictionary_nbits : (loseDictionary s).nbits = s.nbits := rfl
@[simp] theorem loseDictionary_dictionary : (loseDictionary s).dictionary = [] := rfl
@[simp] theorem loseDictionary_stack : (loseDictionary s).stack = s.stack := rfl
@[simp] theorem loseDictionary_sp : (loseDictionary s).sp = s.sp := rfl
@[simp] theorem loseDictionary_out : (loseDictionary s).out = s.out := rfl
@[simp] theorem loseDictionary_pending : (loseDictionary s).pending = s.pending := rfl
@[simp] theorem loseDictionary_result : (loseDictionary s).result = s.result := rfl
@[simp] theorem loseDictionary_readData : (loseDictionary s).readData = s.readData := rfl
@[simp] theorem loseDictionary_freeTick : (loseDictionary s).freeTick = s.freeTick + 1 := rfl

/-! ### returnStatus -/

@[simp] theorem returnStatus_status : (returnStatus s).status = s.status := rfl
@[simp] theorem returnStatus_cause : (returnStatus s).cause = s.cause := rfl
@[simp] theorem returnStatus_faultCode : (returnStatus s).faultCode = s.faultCode := rfl
@[simp] theorem returnStatus_rootSize : (returnStatus s).rootSize = s.rootSize := rfl
@[simp] theorem returnStatus_expected : (returnStatus s).expected = s.expected := rfl
@[simp] theorem returnStatus_outCount : (returnStatus s).outCount = s.outCount := rfl
@[simp] theorem returnStatus_codeSize : (returnStatus s).codeSize = s.codeSize := rfl
@[simp] theorem returnStatus_nextFreeCode : (returnStatus s).nextFreeCode = s.nextFreeCode := rfl
@[simp] theorem returnStatus_previousCode : (returnStatus s).previousCode = s.previousCode := rfl
@[simp] theorem returnStatus_acc : (returnStatus s).acc = s.acc := rfl
@[simp] theorem returnStatus_nbits : (returnStatus s).nbits = s.nbits := rfl
@[simp] theorem returnStatus_dictionary : (returnStatus s).dictionary = s.dictionary := rfl
@[simp] theorem returnStatus_stack : (returnStatus s).stack = s.stack := rfl
@[simp] theorem returnStatus_sp : (returnStatus s).sp = s.sp := rfl
@[simp] theorem returnStatus_out : (returnStatus s).out = s.out := rfl
@[simp] theorem returnStatus_pending : (returnStatus s).pending = s.pending := rfl
@[simp] theorem returnStatus_result : (returnStatus s).result = some s.status := rfl
@[simp] theorem returnStatus_readData : (returnStatus s).readData = s.readData := rfl
@[simp] theorem returnStatus_freeTick : (returnStatus s).freeTick = s.freeTick := rfl

/-! ### appendByte -/

@[simp] theorem appendByte_status (b : Byte) : (appendByte b s).status = s.status := rfl
@[simp] theorem appendByte_cause (b : Byte) : (appendByte b s).cause = s.cause := rfl
@[simp] theorem appendByte_faultCode (b : Byte) : (appendByte b s).faultCode = s.faultCode := rfl
@[simp] theorem appendByte_rootSize (b : Byte) : (appendByte b s).rootSize = s.rootSize := rfl
@[simp] theorem appendByte_expected (b : Byte) : (appendByte b s).expected = s.expected := rfl
@[simp] theorem appendByte_outCount (b : Byte) : (appendByte b s).outCount = s.outCount := rfl
@[simp] theorem appendByte_codeSize (b : Byte) : (appendByte b s).codeSize = s.codeSize := rfl
@[simp] theorem appendByte_nextFreeCode (b : Byte) : (appendByte b s).nextFreeCode = s.nextFreeCode := rfl
@[simp] theorem appendByte_previousCode (b : Byte) : (appendByte b s).previousCode = s.previousCode := rfl
@[simp] theorem appendByte_acc (b : Byte) : (appendByte b s).acc = s.acc ||| (b.setWidth 32 <<< s.nbits.toNat) := rfl
@[simp] theorem appendByte_nbits (b : Byte) : (appendByte b s).nbits = s.nbits + 8#5 := rfl
@[simp] theorem appendByte_dictionary (b : Byte) : (appendByte b s).dictionary = s.dictionary := rfl
@[simp] theorem appendByte_stack (b : Byte) : (appendByte b s).stack = s.stack := rfl
@[simp] theorem appendByte_sp (b : Byte) : (appendByte b s).sp = s.sp := rfl
@[simp] theorem appendByte_out (b : Byte) : (appendByte b s).out = s.out := rfl
@[simp] theorem appendByte_pending (b : Byte) : (appendByte b s).pending = s.pending := rfl
@[simp] theorem appendByte_result (b : Byte) : (appendByte b s).result = s.result := rfl
@[simp] theorem appendByte_readData (b : Byte) : (appendByte b s).readData = s.readData := rfl
@[simp] theorem appendByte_freeTick (b : Byte) : (appendByte b s).freeTick = s.freeTick := rfl

/-! ### consumeCode -/

@[simp] theorem consumeCode_status : (consumeCode s).status = s.status := rfl
@[simp] theorem consumeCode_cause : (consumeCode s).cause = s.cause := rfl
@[simp] theorem consumeCode_faultCode : (consumeCode s).faultCode = s.faultCode := rfl
@[simp] theorem consumeCode_rootSize : (consumeCode s).rootSize = s.rootSize := rfl
@[simp] theorem consumeCode_expected : (consumeCode s).expected = s.expected := rfl
@[simp] theorem consumeCode_outCount : (consumeCode s).outCount = s.outCount := rfl
@[simp] theorem consumeCode_codeSize : (consumeCode s).codeSize = s.codeSize := rfl
@[simp] theorem consumeCode_nextFreeCode : (consumeCode s).nextFreeCode = s.nextFreeCode := rfl
@[simp] theorem consumeCode_previousCode : (consumeCode s).previousCode = s.previousCode := rfl
@[simp] theorem consumeCode_acc : (consumeCode s).acc = s.acc >>> s.codeSize.toNat := rfl
@[simp] theorem consumeCode_nbits : (consumeCode s).nbits = s.nbits - s.codeSize.setWidth 5 := rfl
@[simp] theorem consumeCode_dictionary : (consumeCode s).dictionary = s.dictionary := rfl
@[simp] theorem consumeCode_stack : (consumeCode s).stack = s.stack := rfl
@[simp] theorem consumeCode_sp : (consumeCode s).sp = s.sp := rfl
@[simp] theorem consumeCode_out : (consumeCode s).out = s.out := rfl
@[simp] theorem consumeCode_pending : (consumeCode s).pending = s.pending := rfl
@[simp] theorem consumeCode_result : (consumeCode s).result = s.result := rfl
@[simp] theorem consumeCode_readData : (consumeCode s).readData = s.readData := rfl
@[simp] theorem consumeCode_freeTick : (consumeCode s).freeTick = s.freeTick := rfl

/-! ### resetDictionary -/

@[simp] theorem resetDictionary_status : (resetDictionary s).status = s.status := rfl
@[simp] theorem resetDictionary_cause : (resetDictionary s).cause = s.cause := rfl
@[simp] theorem resetDictionary_faultCode : (resetDictionary s).faultCode = s.faultCode := rfl
@[simp] theorem resetDictionary_rootSize : (resetDictionary s).rootSize = s.rootSize := rfl
@[simp] theorem resetDictionary_expected : (resetDictionary s).expected = s.expected := rfl
@[simp] theorem resetDictionary_outCount : (resetDictionary s).outCount = s.outCount := rfl
@[simp] theorem resetDictionary_codeSize : (resetDictionary s).codeSize = initialCodeSize s.rootSize := rfl
@[simp] theorem resetDictionary_nextFreeCode : (resetDictionary s).nextFreeCode = BitVec.ofNat 13 (firstFreeOf s.rootSize) := rfl
@[simp] theorem resetDictionary_previousCode : (resetDictionary s).previousCode = none := rfl
@[simp] theorem resetDictionary_acc : (resetDictionary s).acc = s.acc := rfl
@[simp] theorem resetDictionary_nbits : (resetDictionary s).nbits = s.nbits := rfl
@[simp] theorem resetDictionary_dictionary : (resetDictionary s).dictionary = writeLiterals (clearOf s.rootSize) s.dictionary := rfl
@[simp] theorem resetDictionary_stack : (resetDictionary s).stack = s.stack := rfl
@[simp] theorem resetDictionary_sp : (resetDictionary s).sp = s.sp := rfl
@[simp] theorem resetDictionary_out : (resetDictionary s).out = s.out := rfl
@[simp] theorem resetDictionary_pending : (resetDictionary s).pending = s.pending := rfl
@[simp] theorem resetDictionary_result : (resetDictionary s).result = s.result := rfl
@[simp] theorem resetDictionary_readData : (resetDictionary s).readData = s.readData := rfl
@[simp] theorem resetDictionary_freeTick : (resetDictionary s).freeTick = s.freeTick := rfl

/-! ### defineSlot -/

@[simp] theorem defineSlot_status (e : Slot) : (defineSlot e s).status = s.status := rfl
@[simp] theorem defineSlot_cause (e : Slot) : (defineSlot e s).cause = s.cause := rfl
@[simp] theorem defineSlot_faultCode (e : Slot) : (defineSlot e s).faultCode = s.faultCode := rfl
@[simp] theorem defineSlot_rootSize (e : Slot) : (defineSlot e s).rootSize = s.rootSize := rfl
@[simp] theorem defineSlot_expected (e : Slot) : (defineSlot e s).expected = s.expected := rfl
@[simp] theorem defineSlot_outCount (e : Slot) : (defineSlot e s).outCount = s.outCount := rfl
@[simp] theorem defineSlot_codeSize (e : Slot) : (defineSlot e s).codeSize = s.codeSize := rfl
@[simp] theorem defineSlot_nextFreeCode (e : Slot) : (defineSlot e s).nextFreeCode = s.nextFreeCode + 1#13 := rfl
@[simp] theorem defineSlot_previousCode (e : Slot) : (defineSlot e s).previousCode = s.previousCode := rfl
@[simp] theorem defineSlot_acc (e : Slot) : (defineSlot e s).acc = s.acc := rfl
@[simp] theorem defineSlot_nbits (e : Slot) : (defineSlot e s).nbits = s.nbits := rfl
@[simp] theorem defineSlot_dictionary (e : Slot) : (defineSlot e s).dictionary = Store.write s.dictionary s.nextFreeCode.toNat e := rfl
@[simp] theorem defineSlot_stack (e : Slot) : (defineSlot e s).stack = s.stack := rfl
@[simp] theorem defineSlot_sp (e : Slot) : (defineSlot e s).sp = s.sp := rfl
@[simp] theorem defineSlot_out (e : Slot) : (defineSlot e s).out = s.out := rfl
@[simp] theorem defineSlot_pending (e : Slot) : (defineSlot e s).pending = s.pending := rfl
@[simp] theorem defineSlot_result (e : Slot) : (defineSlot e s).result = s.result := rfl
@[simp] theorem defineSlot_readData (e : Slot) : (defineSlot e s).readData = s.readData := rfl
@[simp] theorem defineSlot_freeTick (e : Slot) : (defineSlot e s).freeTick = s.freeTick := rfl

/-! ### outWrite -/

@[simp] theorem outWrite_status (i : Count) (v : Byte) : (outWrite i v s).status = s.status := rfl
@[simp] theorem outWrite_cause (i : Count) (v : Byte) : (outWrite i v s).cause = s.cause := rfl
@[simp] theorem outWrite_faultCode (i : Count) (v : Byte) : (outWrite i v s).faultCode = s.faultCode := rfl
@[simp] theorem outWrite_rootSize (i : Count) (v : Byte) : (outWrite i v s).rootSize = s.rootSize := rfl
@[simp] theorem outWrite_expected (i : Count) (v : Byte) : (outWrite i v s).expected = s.expected := rfl
@[simp] theorem outWrite_outCount (i : Count) (v : Byte) : (outWrite i v s).outCount = s.outCount := rfl
@[simp] theorem outWrite_codeSize (i : Count) (v : Byte) : (outWrite i v s).codeSize = s.codeSize := rfl
@[simp] theorem outWrite_nextFreeCode (i : Count) (v : Byte) : (outWrite i v s).nextFreeCode = s.nextFreeCode := rfl
@[simp] theorem outWrite_previousCode (i : Count) (v : Byte) : (outWrite i v s).previousCode = s.previousCode := rfl
@[simp] theorem outWrite_acc (i : Count) (v : Byte) : (outWrite i v s).acc = s.acc := rfl
@[simp] theorem outWrite_nbits (i : Count) (v : Byte) : (outWrite i v s).nbits = s.nbits := rfl
@[simp] theorem outWrite_dictionary (i : Count) (v : Byte) : (outWrite i v s).dictionary = s.dictionary := rfl
@[simp] theorem outWrite_stack (i : Count) (v : Byte) : (outWrite i v s).stack = s.stack := rfl
@[simp] theorem outWrite_sp (i : Count) (v : Byte) : (outWrite i v s).sp = s.sp := rfl
@[simp] theorem outWrite_out (i : Count) (v : Byte) : (outWrite i v s).out = Store.write s.out i.toNat v := rfl
@[simp] theorem outWrite_pending (i : Count) (v : Byte) : (outWrite i v s).pending = s.pending := rfl
@[simp] theorem outWrite_result (i : Count) (v : Byte) : (outWrite i v s).result = s.result := rfl
@[simp] theorem outWrite_readData (i : Count) (v : Byte) : (outWrite i v s).readData = s.readData := rfl
@[simp] theorem outWrite_freeTick (i : Count) (v : Byte) : (outWrite i v s).freeTick = s.freeTick := rfl

/-! ### growCodeSize -/

@[simp] theorem growCodeSize_status : (growCodeSize s).status = s.status := by
  unfold growCodeSize; split <;> rfl
@[simp] theorem growCodeSize_cause : (growCodeSize s).cause = s.cause := by
  unfold growCodeSize; split <;> rfl
@[simp] theorem growCodeSize_faultCode : (growCodeSize s).faultCode = s.faultCode := by
  unfold growCodeSize; split <;> rfl
@[simp] theorem growCodeSize_rootSize : (growCodeSize s).rootSize = s.rootSize := by
  unfold growCodeSize; split <;> rfl
@[simp] theorem growCodeSize_expected : (growCodeSize s).expected = s.expected := by
  unfold growCodeSize; split <;> rfl
@[simp] theorem growCodeSize_outCount : (growCodeSize s).outCount = s.outCount := by
  unfold growCodeSize; split <;> rfl
@[simp] theorem growCodeSize_nextFreeCode : (growCodeSize s).nextFreeCode = s.nextFreeCode := by
  unfold growCodeSize; split <;> rfl
@[simp] theorem growCodeSize_previousCode : (growCodeSize s).previousCode = s.previousCode := by
  unfold growCodeSize; split <;> rfl
@[simp] theorem growCodeSize_acc : (growCodeSize s).acc = s.acc := by
  unfold growCodeSize; split <;> rfl
@[simp] theorem growCodeSize_nbits : (growCodeSize s).nbits = s.nbits := by
  unfold growCodeSize; split <;> rfl
@[simp] theorem growCodeSize_dictionary : (growCodeSize s).dictionary = s.dictionary := by
  unfold growCodeSize; split <;> rfl
@[simp] theorem growCodeSize_stack : (growCodeSize s).stack = s.stack := by
  unfold growCodeSize; split <;> rfl
@[simp] theorem growCodeSize_sp : (growCodeSize s).sp = s.sp := by
  unfold growCodeSize; split <;> rfl
@[simp] theorem growCodeSize_out : (growCodeSize s).out = s.out := by
  unfold growCodeSize; split <;> rfl
@[simp] theorem growCodeSize_pending : (growCodeSize s).pending = s.pending := by
  unfold growCodeSize; split <;> rfl
@[simp] theorem growCodeSize_result : (growCodeSize s).result = s.result := by
  unfold growCodeSize; split <;> rfl
@[simp] theorem growCodeSize_readData : (growCodeSize s).readData = s.readData := by
  unfold growCodeSize; split <;> rfl
@[simp] theorem growCodeSize_freeTick : (growCodeSize s).freeTick = s.freeTick := by
  unfold growCodeSize; split <;> rfl

/-! ### putPixel -/

@[simp] theorem putPixel_status (v : Byte) : (putPixel v s).status = s.status := by
  unfold putPixel; split <;> rfl
@[simp] theorem putPixel_cause (v : Byte) : (putPixel v s).cause = s.cause := by
  unfold putPixel; split <;> rfl
@[simp] theorem putPixel_faultCode (v : Byte) : (putPixel v s).faultCode = s.faultCode := by
  unfold putPixel; split <;> rfl
@[simp] theorem putPixel_rootSize (v : Byte) : (putPixel v s).rootSize = s.rootSize := by
  unfold putPixel; split <;> rfl
@[simp] theorem putPixel_expected (v : Byte) : (putPixel v s).expected = s.expected := by
  unfold putPixel; split <;> rfl
@[simp] theorem putPixel_codeSize (v : Byte) : (putPixel v s).codeSize = s.codeSize := by
  unfold putPixel; split <;> rfl
@[simp] theorem putPixel_nextFreeCode (v : Byte) : (putPixel v s).nextFreeCode = s.nextFreeCode := by
  unfold putPixel; split <;> rfl
@[simp] theorem putPixel_previousCode (v : Byte) : (putPixel v s).previousCode = s.previousCode := by
  unfold putPixel; split <;> rfl
@[simp] theorem putPixel_acc (v : Byte) : (putPixel v s).acc = s.acc := by
  unfold putPixel; split <;> rfl
@[simp] theorem putPixel_nbits (v : Byte) : (putPixel v s).nbits = s.nbits := by
  unfold putPixel; split <;> rfl
@[simp] theorem putPixel_dictionary (v : Byte) : (putPixel v s).dictionary = s.dictionary := by
  unfold putPixel; split <;> rfl
@[simp] theorem putPixel_stack (v : Byte) : (putPixel v s).stack = s.stack := by
  unfold putPixel; split <;> rfl
@[simp] theorem putPixel_sp (v : Byte) : (putPixel v s).sp = s.sp := by
  unfold putPixel; split <;> rfl
@[simp] theorem putPixel_pending (v : Byte) : (putPixel v s).pending = s.pending := by
  unfold putPixel; split <;> rfl
@[simp] theorem putPixel_result (v : Byte) : (putPixel v s).result = s.result := by
  unfold putPixel; split <;> rfl
@[simp] theorem putPixel_readData (v : Byte) : (putPixel v s).readData = s.readData := by
  unfold putPixel; split <;> rfl
@[simp] theorem putPixel_freeTick (v : Byte) : (putPixel v s).freeTick = s.freeTick := by
  unfold putPixel; split <;> rfl

/-! ### checkComplete -/

@[simp] theorem checkComplete_cause : (checkComplete s).cause = s.cause := by
  unfold checkComplete; split <;> rfl
@[simp] theorem checkComplete_faultCode : (checkComplete s).faultCode = s.faultCode := by
  unfold checkComplete; split <;> rfl
@[simp] theorem checkComplete_rootSize : (checkComplete s).rootSize = s.rootSize := by
  unfold checkComplete; split <;> rfl
@[simp] theorem checkComplete_expected : (checkComplete s).expected = s.expected := by
  unfold checkComplete; split <;> rfl
@[simp] theorem checkComplete_outCount : (checkComplete s).outCount = s.outCount := by
  unfold checkComplete; split <;> rfl
@[simp] theorem checkComplete_codeSize : (checkComplete s).codeSize = s.codeSize := by
  unfold checkComplete; split <;> rfl
@[simp] theorem checkComplete_nextFreeCode : (checkComplete s).nextFreeCode = s.nextFreeCode := by
  unfold checkComplete; split <;> rfl
@[simp] theorem checkComplete_previousCode : (checkComplete s).previousCode = s.previousCode := by
  unfold checkComplete; split <;> rfl
@[simp] theorem checkComplete_acc : (checkComplete s).acc = s.acc := by
  unfold checkComplete; split <;> rfl
@[simp] theorem checkComplete_nbits : (checkComplete s).nbits = s.nbits := by
  unfold checkComplete; split <;> rfl
@[simp] theorem checkComplete_dictionary : (checkComplete s).dictionary = s.dictionary := by
  unfold checkComplete; split <;> rfl
@[simp] theorem checkComplete_stack : (checkComplete s).stack = s.stack := by
  unfold checkComplete; split <;> rfl
@[simp] theorem checkComplete_sp : (checkComplete s).sp = s.sp := by
  unfold checkComplete; split <;> rfl
@[simp] theorem checkComplete_out : (checkComplete s).out = s.out := by
  unfold checkComplete; split <;> rfl
@[simp] theorem checkComplete_pending : (checkComplete s).pending = s.pending := by
  unfold checkComplete; split <;> rfl
@[simp] theorem checkComplete_result : (checkComplete s).result = s.result := by
  unfold checkComplete; split <;> rfl
@[simp] theorem checkComplete_readData : (checkComplete s).readData = s.readData := by
  unfold checkComplete; split <;> rfl
@[simp] theorem checkComplete_freeTick : (checkComplete s).freeTick = s.freeTick := by
  unfold checkComplete; split <;> rfl

/-! ### acceptCode -/

@[simp] theorem acceptCode_cause (c : Code) : (acceptCode c s).cause = s.cause := by
  simp [acceptCode]
@[simp] theorem acceptCode_faultCode (c : Code) : (acceptCode c s).faultCode = s.faultCode := by
  simp [acceptCode]
@[simp] theorem acceptCode_rootSize (c : Code) : (acceptCode c s).rootSize = s.rootSize := by
  simp [acceptCode]
@[simp] theorem acceptCode_expected (c : Code) : (acceptCode c s).expected = s.expected := by
  simp [acceptCode]
@[simp] theorem acceptCode_outCount (c : Code) : (acceptCode c s).outCount = s.outCount := by
  simp [acceptCode]
@[simp] theorem acceptCode_codeSize (c : Code) : (acceptCode c s).codeSize = s.codeSize := by
  simp [acceptCode]
@[simp] theorem acceptCode_nextFreeCode (c : Code) : (acceptCode c s).nextFreeCode = s.nextFreeCode := by
  simp [acceptCode]
@[simp] theorem acceptCode_previousCode (c : Code) : (acceptCode c s).previousCode = some c := by
  simp [acceptCode]
@[simp] theorem acceptCode_acc (c : Code) : (acceptCode c s).acc = s.acc := by
  simp [acceptCode]
@[simp] theorem acceptCode_nbits (c : Code) : (acceptCode c s).nbits = s.nbits := by
  simp [acceptCode]
@[simp] theorem acceptCode_dictionary (c : Code) : (acceptCode c s).dictionary = s.dictionary := by
  simp [acceptCode]
@[simp] theorem acceptCode_stack (c : Code) : (acceptCode c s).stack = s.stack := by
  simp [acceptCode]
@[simp] theorem acceptCode_sp (c : Code) : (acceptCode c s).sp = s.sp := by
  simp [acceptCode]
@[simp] theorem acceptCode_out (c : Code) : (acceptCode c s).out = s.out := by
  simp [acceptCode]
@[simp] theorem acceptCode_pending (c : Code) : (acceptCode c s).pending = s.pending := by
  simp [acceptCode]
@[simp] theorem acceptCode_result (c : Code) : (acceptCode c s).result = s.result := by
  simp [acceptCode]
@[simp] theorem acceptCode_readData (c : Code) : (acceptCode c s).readData = s.readData := by
  simp [acceptCode]
@[simp] theorem acceptCode_freeTick (c : Code) : (acceptCode c s).freeTick = s.freeTick := by
  simp [acceptCode]

/-! ### The registers of a classification -/

@[simp] theorem ctx_rootSize : s.ctx.rootSize = s.rootSize := rfl
@[simp] theorem ctx_codeSize : s.ctx.codeSize = s.codeSize := rfl
@[simp] theorem ctx_nextFreeCode : s.ctx.nextFreeCode = s.nextFreeCode := rfl
@[simp] theorem ctx_previousCode : s.ctx.previousCode = s.previousCode := rfl
@[simp] theorem ctx_consumeCode : (consumeCode s).ctx = s.ctx := rfl
@[simp] theorem ctx_appendByte (b : Byte) : (appendByte b s).ctx = s.ctx := rfl

/-! ### andThen -/

@[simp] theorem andThen_next (f : State → Result) : andThen (.next s) f = f s := rfl
@[simp] theorem andThen_fault (e : Fault) (f : State → Result) : andThen (.fault e) f = .fault e := rfl
@[simp] theorem andThen_refused (e : Refusal) (f : State → Result) : andThen (.refused e) f = .refused e := rfl

/-- A chain of two operations goes on exactly when the first does and the second does after it. -/
theorem andThen_eq_next {o : Result} {f : State → Result} {t : State} (h : andThen o f = .next t) :
    ∃ u, o = .next u ∧ f u = .next t := by
  cases o with
  | next u => exact ⟨u, rfl, h⟩
  | fault e => cases h
  | refused e => cases h

end Sys2Proof.Machine
end

