-- ==== Sys2Proof/Laws/Emission.lean ====
section
/-! SUPPORT. Emission (43_dictionary.md R175, R176): what PutPixel, the two loops of Emit and Emit itself do, once each. -/

namespace Sys2Proof.Machine

/-! ## Pixel strings -/

theorem pixelString_length_le {d : List (Nat × Slot)} {fuel : Nat} {c : Code} {str : List Byte}
    (h : pixelString d fuel c = some str) : str.length ≤ fuel := by
  induction fuel generalizing c str with
  | zero => cases h
  | succ n ih =>
    unfold pixelString at h
    split at h
    · cases h
    · split at h
      · cases h; simp
      · obtain ⟨a, ha, rfl⟩ := Option.map_eq_some_iff.1 h
        simpa using ih ha

theorem pixelString_mono {d : List (Nat × Slot)} {fuel fuel' : Nat} {c : Code} {str : List Byte}
    (h : pixelString d fuel c = some str) (hf : fuel ≤ fuel') : pixelString d fuel' c = some str := by
  induction fuel generalizing c str fuel' with
  | zero => cases h
  | succ n ih =>
    obtain ⟨m, rfl⟩ : ∃ m, fuel' = m + 1 := ⟨fuel' - 1, by omega⟩
    unfold pixelString at h ⊢
    split at h
    · cases h
    · next e he =>
      split at h
      · next hp => simpa [hp] using h
      · next p hp =>
        obtain ⟨a, ha, rfl⟩ := Option.map_eq_some_iff.1 h
        simp [ih ha (by omega : n ≤ m)]

/-! ## PutPixel -/

theorem putPixel_outCount (v : Byte) (s : State) :
    (putPixel v s).outCount.toNat = if s.outCount.toNat < s.expected.toNat then s.outCount.toNat + 1
      else s.outCount.toNat := by
  unfold putPixel hasRoom
  have h2 := s.expected.isLt
  by_cases h : s.outCount.toNat < s.expected.toNat
  · simp only [h, decide_true, if_true, BitVec.toNat_add]
    show (s.outCount.toNat + 1) % 2 ^ 32 = _
    omega
  · simp [h]

theorem putPixel_out (v : Byte) (s : State) :
    (putPixel v s).out = if s.outCount.toNat < s.expected.toNat then Store.write s.out s.outCount.toNat v
      else s.out := by
  unfold putPixel hasRoom
  by_cases h : s.outCount.toNat < s.expected.toNat <;> simp [h]

theorem putPixel_setStack (v : Byte) (s : State) (p : BitVec 13) (m : List Host.Cell) :
    putPixel v { s with sp := p, stack := m } = { putPixel v s with sp := p, stack := m } := by
  unfold putPixel hasRoom
  dsimp only
  split <;> rfl

/-! ## A whole string -/

@[simp] theorem putString_nil (s : State) : putString [] s = s := rfl

@[simp] theorem putString_cons (v : Byte) (str : List Byte) (s : State) :
    putString (v :: str) s = putString str (putPixel v s) := rfl

theorem putString_append (a b : List Byte) (s : State) : putString (a ++ b) s = putString b (putString a s) := by
  simp [putString, List.foldl_append]

theorem putString_setStack (str : List Byte) (s : State) (p : BitVec 13) (m : List Host.Cell) :
    putString str { s with sp := p, stack := m } = { putString str s with sp := p, stack := m } := by
  induction str generalizing s with
  | nil => rfl
  | cons v str ih => simp only [putString_cons, putPixel_setStack, ih]

/-- A string changes the output buffer and `outCount`, and nothing else. -/
theorem putString_frame (str : List Byte) (s : State) :
    putString str s = { s with out := (putString str s).out, outCount := (putString str s).outCount } := by
  induction str generalizing s with
  | nil => rfl
  | cons v str ih =>
    rw [putString_cons, ih]
    cases s
    simp only [putPixel_status, putPixel_cause, putPixel_faultCode, putPixel_rootSize, putPixel_expected,
      putPixel_codeSize, putPixel_nextFreeCode, putPixel_previousCode, putPixel_acc, putPixel_nbits,
      putPixel_dictionary, putPixel_stack, putPixel_sp, putPixel_pending, putPixel_result, putPixel_readData,
      putPixel_freeTick]

@[simp] theorem putString_status (str : List Byte) (s : State) : (putString str s).status = s.status := by
  rw [putString_frame]
@[simp] theorem putString_cause (str : List Byte) (s : State) : (putString str s).cause = s.cause := by
  rw [putString_frame]
@[simp] theorem putString_faultCode (str : List Byte) (s : State) : (putString str s).faultCode = s.faultCode := by
  rw [putString_frame]
@[simp] theorem putString_rootSize (str : List Byte) (s : State) : (putString str s).rootSize = s.rootSize := by
  rw [putString_frame]
@[simp] theorem putString_expected (str : List Byte) (s : State) : (putString str s).expected = s.expected := by
  rw [putString_frame]
@[simp] theorem putString_codeSize (str : List Byte) (s : State) : (putString str s).codeSize = s.codeSize := by
  rw [putString_frame]
@[simp] theorem putString_nextFreeCode (str : List Byte) (s : State) : (putString str s).nextFreeCode = s.nextFreeCode := by
  rw [putString_frame]
@[simp] theorem putString_previousCode (str : List Byte) (s : State) : (putString str s).previousCode = s.previousCode := by
  rw [putString_frame]
@[simp] theorem putString_acc (str : List Byte) (s : State) : (putString str s).acc = s.acc := by
  rw [putString_frame]
@[simp] theorem putString_nbits (str : List Byte) (s : State) : (putString str s).nbits = s.nbits := by
  rw [putString_frame]
@[simp] theorem putString_dictionary (str : List Byte) (s : State) : (putString str s).dictionary = s.dictionary := by
  rw [putString_frame]
@[simp] theorem putString_stack (str : List Byte) (s : State) : (putString str s).stack = s.stack := by
  rw [putString_frame]
@[simp] theorem putString_sp (str : List Byte) (s : State) : (putString str s).sp = s.sp := by
  rw [putString_frame]
@[simp] theorem putString_pending (str : List Byte) (s : State) : (putString str s).pending = s.pending := by
  rw [putString_frame]
@[simp] theorem putString_result (str : List Byte) (s : State) : (putString str s).result = s.result := by
  rw [putString_frame]
@[simp] theorem putString_readData (str : List Byte) (s : State) : (putString str s).readData = s.readData := by
  rw [putString_frame]
@[simp] theorem putString_freeTick (str : List Byte) (s : State) : (putString str s).freeTick = s.freeTick := by
  rw [putString_frame]

/-- A string stops at `expected` (43_dictionary.md R176). -/
theorem putString_outCount (str : List Byte) (s : State) (h : s.outCount.toNat ≤ s.expected.toNat) :
    (putString str s).outCount.toNat = min (s.outCount.toNat + str.length) s.expected.toNat := by
  induction str generalizing s with
  | nil => simp [h]
  | cons v str ih =>
    have h1 := putPixel_outCount v s
    rw [putString_cons, ih]
    · rw [putPixel_expected, List.length_cons]
      split at h1 <;> omega
    · rw [putPixel_expected]
      split at h1 <;> omega

/-- Positions from `outCount` on take the string's pixels in order; every other position keeps its own (20_memory.md
R53, 43_dictionary.md R175, R176). -/
theorem putString_read (str : List Byte) (s : State) (h : s.outCount.toNat ≤ s.expected.toNat) (i : Nat) :
    Store.read (putString str s).out i =
      if s.outCount.toNat ≤ i ∧ i < min (s.outCount.toNat + str.length) s.expected.toNat
      then str[i - s.outCount.toNat]? else Store.read s.out i := by
  induction str generalizing s with
  | nil =>
    have : ¬ (s.outCount.toNat ≤ i ∧ i < min (s.outCount.toNat + ([] : List Byte).length) s.expected.toNat) := by
      simp; omega
    rw [if_neg this]; rfl
  | cons v str ih =>
    have h1 := putPixel_outCount v s
    have h3 := putPixel_out v s
    have h2 : (putPixel v s).outCount.toNat ≤ (putPixel v s).expected.toNat := by
      rw [putPixel_expected]; split at h1 <;> omega
    rw [putString_cons, ih _ h2, putPixel_expected, h1, h3, List.length_cons]
    by_cases hr : s.outCount.toNat < s.expected.toNat
    · simp only [hr, if_true, Store.read_write]
      by_cases hi : i = s.outCount.toNat
      · subst hi
        have e1 : ¬ (s.outCount.toNat + 1 ≤ s.outCount.toNat ∧
            s.outCount.toNat < min (s.outCount.toNat + 1 + str.length) s.expected.toNat) := by omega
        have e2 : s.outCount.toNat ≤ s.outCount.toNat ∧
            s.outCount.toNat < min (s.outCount.toNat + (str.length + 1)) s.expected.toNat := by omega
        rw [if_neg e1, if_pos e2]
        simp
      · simp only [hi, if_false]
        by_cases hj : s.outCount.toNat + 1 ≤ i
        · have e0 : i - s.outCount.toNat = (i - (s.outCount.toNat + 1)) + 1 := by omega
          rw [e0, List.getElem?_cons_succ]
          congr 1
          simp only [eq_iff_iff]
          omega
        · have e1 : ¬ (s.outCount.toNat + 1 ≤ i ∧
            i < min (s.outCount.toNat + 1 + str.length) s.expected.toNat) := by omega
          have e2 : ¬ (s.outCount.toNat ≤ i ∧
            i < min (s.outCount.toNat + (str.length + 1)) s.expected.toNat) := by omega
          rw [if_neg e1, if_neg e2]
    · have e1 : ¬ (s.outCount.toNat ≤ i ∧ i < min (s.outCount.toNat + str.length) s.expected.toNat) := by omega
      have e2 : ¬ (s.outCount.toNat ≤ i ∧ i < min (s.outCount.toNat + (str.length + 1)) s.expected.toNat) := by omega
      simp only [hr, if_false, e1, e2]

/-- Writing a string is what Safety calls its emission (43_dictionary.md R175, R176). -/
theorem putString_emitted (str : List Byte) (s : State) (h : s.outCount.toNat ≤ s.expected.toNat) :
    Emitted str s (putString str s) := by
  have h1 := putString_outCount str s h
  exact ⟨h1, fun i => by rw [h1, putString_read str s h]⟩

theorem putString_wf (str : List Byte) (s : State) (h : Memory.wf s.out) : Memory.wf (putString str s).out := by
  induction str generalizing s with
  | nil => exact h
  | cons v str ih =>
    rw [putString_cons]
    refine ih _ ?_
    rw [putPixel_out]
    split
    · exact Store.write_wf _ _ h
    · exact h

/-! ## The stack -/

/-- The cells of a stack whose live entries are `xs`, the top first. -/
def stackCells : List Byte → List Host.Cell
  | [] => []
  | x :: xs => stackCells xs ++ [(xs.length, x)]

theorem stackCells_below (xs : List Byte) : ∀ kv ∈ stackCells xs, kv.1 < xs.length := by
  induction xs with
  | nil => simp [stackCells]
  | cons x xs ih =>
    intro kv h
    rcases List.mem_append.1 h with h | h
    · have := ih kv h; simp only [List.length_cons]; omega
    · obtain rfl := List.mem_singleton.1 h; simp

theorem Store.write_end {α : Type} (d : List (Nat × α)) (a : Nat) (v : α) (h : ∀ kv ∈ d, kv.1 < a) :
    Store.write d a v = d ++ [(a, v)] := by
  induction d with
  | nil => rfl
  | cons kv rest ih =>
    have h1 : kv.1 < a := h kv (by simp)
    have h2 : ¬ a < kv.1 := by omega
    have h3 : ¬ a = kv.1 := by omega
    simp only [Store.write, h2, h3, if_false, List.cons_append]
    rw [ih fun x hx => h x (by simp [hx])]

theorem stackCells_push (x : Byte) (xs : List Byte) :
    Store.write (stackCells xs) xs.length x = stackCells (x :: xs) :=
  Store.write_end _ _ _ (stackCells_below xs)

theorem stackCells_top (x : Byte) (xs : List Byte) : Store.read (stackCells (x :: xs)) xs.length = some x := by
  rw [← stackCells_push]; simp

theorem stackCells_pop (x : Byte) (xs : List Byte) : Store.erase (stackCells (x :: xs)) xs.length = stackCells xs := by
  rw [← stackCells_push]; exact Store.erase_write_end _ _ _ (stackCells_below xs)

/-! ## Emit's loops -/

/-- The walk pushes the chain's pixels, the head of the string on top (43_dictionary.md R175). -/
theorem walkChain_eq {fuel : Nat} {k : Code} {s : State} {xs str : List Byte}
    (hs : s.stack = stackCells xs) (hp : s.sp = BitVec.ofNat 13 xs.length)
    (hf : xs.length + fuel ≤ Config.stackDepth) (h : pixelString s.dictionary fuel k = some str) :
    walkChain fuel k s =
      .next { s with stack := stackCells (str ++ xs), sp := BitVec.ofNat 13 (str ++ xs).length } := by
  induction fuel generalizing k s xs str with
  | zero => cases h
  | succ n ih =>
    have hd : Config.stackDepth = 4096 := rfl
    rw [walkChain]
    rw [pixelString] at h
    cases he : Store.read s.dictionary k.toNat with
    | none => rw [he] at h; cases h
    | some e =>
      have hr : readSlot k s = some e := he
      rw [hr]
      rw [he] at h
      dsimp only at h ⊢
      have hsp : s.sp.toNat = xs.length := by
        rw [hp, BitVec.toNat_ofNat]; omega
      have hpush : push e.pixelValue s = .next { s with
          stack := stackCells (e.pixelValue :: xs), sp := BitVec.ofNat 13 (e.pixelValue :: xs).length } := by
        unfold push
        have hlt : xs.length < Config.stackDepth := by omega
        rw [hsp, if_pos hlt, hs, stackCells_push, hp, List.length_cons, BitVec.ofNat_add]
      rw [hpush, andThen_next]
      cases hn : e.prefixCode with
      | none => rw [hn] at h; cases h; simp
      | some p =>
        rw [hn] at h
        obtain ⟨a, ha, rfl⟩ := Option.map_eq_some_iff.1 h
        dsimp only
        have h3 := ih (s := { s with
          stack := stackCells (e.pixelValue :: xs), sp := BitVec.ofNat 13 (e.pixelValue :: xs).length })
          (xs := e.pixelValue :: xs) (str := a) rfl rfl (by simp only [List.length_cons]; omega) ha
        rw [h3]
        simp

/-- The drain writes the live entries, the top first, and leaves the stack empty (43_dictionary.md R175). -/
theorem drainStack_eq {s : State} {xs : List Byte}
    (hs : s.stack = stackCells xs) (hp : s.sp = BitVec.ofNat 13 xs.length) (hf : xs.length ≤ Config.stackDepth) :
    drainStack xs.length s = .next { putString xs s with sp := 0#13, stack := [] } := by
  induction xs generalizing s with
  | nil =>
    show Host.Outcome.next s = _
    rw [putString_nil]
    congr 1
    cases s
    simp only at hs hp
    subst hs; subst hp
    rfl
  | cons x xs ih =>
    have hd : Config.stackDepth = 4096 := rfl
    rw [List.length_cons] at hf
    have h1 : s.sp - 1#13 = BitVec.ofNat 13 xs.length := by
      rw [hp, List.length_cons, BitVec.ofNat_add]; simp
    have h2 : (s.sp - 1#13).toNat = xs.length := by
      rw [h1, BitVec.toNat_ofNat]; omega
    have hpop : popPixel s = .next (putPixel x { s with sp := BitVec.ofNat 13 xs.length, stack := stackCells xs }) := by
      unfold popPixel
      rw [h2, hs, stackCells_top, stackCells_pop, h1]
    show andThen (popPixel s) (drainStack xs.length) = _
    rw [hpop, andThen_next, ih (by simp) (by simp) (by omega)]
    rw [putPixel_setStack, putString_setStack, putString_cons]

/-- What Emit does, once for all: it writes the string of `c` and leaves the stack empty (43_dictionary.md R175). -/
theorem emit_eq {c : Code} {s : State} {str : List Byte} (h : stringOf s c = some str) :
    emit c s = .next { putString str s with sp := 0#13, stack := [] } := by
  have hlen := pixelString_length_le h
  have hd : Config.stackDepth = 4096 := rfl
  unfold emit
  rw [walkChain_eq (s := { s with sp := 0#13, stack := [] }) (xs := []) (str := str) rfl rfl (by simp) h]
  rw [andThen_next, List.append_nil]
  have h2 : (BitVec.ofNat 13 str.length).toNat = str.length := by
    rw [BitVec.toNat_ofNat]; omega
  dsimp only
  rw [h2, drainStack_eq rfl rfl hlen]
  rw [show ({ s with sp := BitVec.ofNat 13 str.length, stack := stackCells str } : State) =
      { s with sp := BitVec.ofNat 13 str.length, stack := stackCells str } from rfl, putString_setStack]

end Sys2Proof.Machine
end

