-- ==== Sys2Proof/Laws/Dictionary.lean ====
section
/-! SUPPORT. The dictionary (43_dictionary.md): what ResetDictionary, AddEntry and GrowCodeSize do to the dictionary
invariant (10_state.md R32) and to the width schedule (30_encoding.md R79), and the strings the invariant yields. -/

namespace Sys2Proof.Machine

/-! ## Root sizes -/

theorem rootOk_iff (r : Byte) : rootOk r = true ↔ 2 ≤ r.toNat ∧ r.toNat ≤ 8 := by
  unfold rootOk
  rw [Bool.and_eq_true, decide_eq_true_iff, decide_eq_true_iff]

theorem clearOf_bounds {r : Byte} (h : rootOk r = true) : 4 ≤ clearOf r ∧ clearOf r ≤ 256 := by
  obtain ⟨h1, h2⟩ := (rootOk_iff r).1 h
  have h3 : (2 : Nat) ^ 2 ≤ 2 ^ r.toNat := Nat.pow_le_pow_right (by omega) h1
  have h4 : (2 : Nat) ^ r.toNat ≤ 2 ^ 8 := Nat.pow_le_pow_right (by omega) h2
  exact ⟨h3, h4⟩

theorem eoiOf_eq (r : Byte) : eoiOf r = clearOf r + 1 := rfl

theorem firstFreeOf_eq (r : Byte) : firstFreeOf r = clearOf r + 2 := rfl

theorem initialCodeSize_toNat {r : Byte} (h : rootOk r = true) : (initialCodeSize r).toNat = r.toNat + 1 := by
  obtain ⟨h1, h2⟩ := (rootOk_iff r).1 h
  rw [initialCodeSize, BitVec.toNat_setWidth, BitVec.toNat_add]
  show (r.toNat + 1) % 2 ^ 8 % 2 ^ 4 = _
  omega

theorem firstFree_toNat {r : Byte} (h : rootOk r = true) :
    (BitVec.ofNat 13 (firstFreeOf r)).toNat = firstFreeOf r := by
  have := clearOf_bounds h
  rw [BitVec.toNat_ofNat, firstFreeOf_eq]; omega

/-! ## ResetDictionary -/

theorem writeLiterals_read (n : Nat) (d : List (Nat × Slot)) (c : Nat) :
    Store.read (writeLiterals n d) c = if c < n then some (literalSlot c) else Store.read d c := by
  induction n with
  | zero => simp [writeLiterals]
  | succ n ih =>
    rw [writeLiterals, Store.read_write, ih]
    by_cases h : c = n
    · subst h; simp
    · by_cases h2 : c < n
      · simp [h, h2, Nat.lt_succ_of_lt h2]
      · have : ¬ c < n + 1 := by omega
        simp [h, h2, this]

theorem writeLiterals_wf (n : Nat) {d : List (Nat × Slot)} (h : Store.wf d) : Store.wf (writeLiterals n d) := by
  induction n with
  | zero => exact h
  | succ n ih => exact Store.write_wf _ _ ih

theorem dictInv_writeLiterals (r : Byte) (d : List (Nat × Slot)) :
    DictInv r (firstFreeOf r) (writeLiterals (clearOf r) d) := by
  intro c hc hr
  obtain ⟨h1, h2⟩ := hr
  rw [eoiOf_eq] at h2
  rw [firstFreeOf_eq] at hc
  have hlt : c < clearOf r := by omega
  exact ⟨literalSlot c, by rw [writeLiterals_read, if_pos hlt], .inl ⟨hlt, rfl⟩⟩

/-! ## The strings of live codes -/

theorem literalSlot_pixel {r : Byte} {c : Nat} (h : rootOk r = true) (hc : c < clearOf r) :
    (literalSlot c).pixelValue.toNat = c ∧ (literalSlot c).firstPixel.toNat = c := by
  have := clearOf_bounds h
  simp only [literalSlot, BitVec.toNat_ofNat]
  omega

theorem slotInv_firstPixel {r : Byte} {d : List (Nat × Slot)} {c : Nat} {e : Slot} (h : rootOk r = true)
    (hs : SlotInv r d c e) : e.firstPixel.toNat < clearOf r := by
  rcases hs with ⟨h1, rfl⟩ | ⟨-, -, h2, -⟩
  · rw [(literalSlot_pixel h h1).2]; exact h1
  · exact h2

/-- Under the dictionary invariant every live code has a string: its pixels are literal values, the first is
`firstPixel`, and a code above EOI has at most `c - Clear` of them (10_state.md R32, R34; 43_dictionary.md R175, R178). -/
theorem pixelString_of_dictInv {r : Byte} {n : Nat} {d : List (Nat × Slot)} (hr : rootOk r = true)
    (hd : DictInv r n d) (c : Code) (hc : c.toNat < n) (hc' : notReserved r c.toNat) :
    ∃ str e, pixelString d (c.toNat + 1) c = some str ∧ Store.read d c.toNat = some e ∧
      str.head? = some e.firstPixel ∧ (∀ v ∈ str, v.toNat < clearOf r) ∧
      (str.length = 1 ∨ str.length ≤ c.toNat - clearOf r) := by
  induction hm : c.toNat using Nat.strong_induction_on generalizing c with
  | _ m ih =>
    obtain ⟨e, he, hs⟩ := hd _ hc hc'
    subst hm
    rcases hs with ⟨h1, rfl⟩ | ⟨h1, h2, h3, p, q, hp, hlt, hpr, hq, hf⟩
    · refine ⟨[(literalSlot c.toNat).pixelValue], _, ?_, he, rfl, ?_, .inl rfl⟩
      · simp [pixelString, he, literalSlot]
      · intro v hv
        obtain rfl := List.mem_singleton.1 hv
        rw [(literalSlot_pixel hr h1).1]; exact h1
    · obtain ⟨str, e', hstr, he', hhead, hval, hlen⟩ := ih p.toNat hlt p (by omega) hpr rfl
      rw [hq] at he'
      cases he'
      refine ⟨str ++ [e.pixelValue], e, ?_, he, ?_, ?_, .inr ?_⟩
      · simp only [pixelString, he, hp]
        rw [pixelString_mono hstr (by omega : p.toNat + 1 ≤ c.toNat)]; rfl
      · cases str with
        | nil => cases hhead
        | cons x xs => rw [hf]; simpa using hhead
      · intro v hv
        rcases List.mem_append.1 hv with hv | hv
        · exact hval v hv
        · obtain rfl := List.mem_singleton.1 hv; exact h2
      · have := clearOf_bounds hr
        rw [firstFreeOf_eq] at h1
        simp only [List.length_append, List.length_singleton]
        omega

/-- The same, for the string Emit writes. -/
theorem stringOf_of_dictInv {s : State} (hr : rootOk s.rootSize = true) {n : Nat}
    (hd : DictInv s.rootSize n s.dictionary) (c : Code) (hc : c.toNat < n) (hc' : notReserved s.rootSize c.toNat) :
    ∃ str e, stringOf s c = some str ∧ readSlot c s = some e ∧ str.head? = some e.firstPixel ∧
      (∀ v ∈ str, v.toNat < clearOf s.rootSize) ∧
      (str.length = 1 ∨ str.length ≤ c.toNat - clearOf s.rootSize) := by
  obtain ⟨str, e, h, rest⟩ := pixelString_of_dictInv hr hd c hc hc'
  have hb : c.toNat + 1 ≤ Config.stackDepth := c.isLt
  exact ⟨str, e, pixelString_mono h hb, rest⟩

/-! ## AddEntry -/

/-- The new entry keeps the dictionary invariant, one slot further (43_dictionary.md R172). -/
theorem dictInv_write {r : Byte} {n : Nat} {d : List (Nat × Slot)} {p : Code} {px : Byte} {q : Slot}
    (hr : rootOk r = true) (hd : DictInv r n d) (hn : firstFreeOf r ≤ n) (hp : p.toNat < n)
    (hp' : notReserved r p.toNat) (hpx : px.toNat < clearOf r) (hq : Store.read d p.toNat = some q) :
    DictInv r (n + 1) (Store.write d n ⟨some p, px, q.firstPixel⟩) := by
  have hq1 : q.firstPixel.toNat < clearOf r := by
    obtain ⟨e, he, hs⟩ := hd _ hp hp'
    rw [hq] at he; cases he
    exact slotInv_firstPixel hr hs
  intro c hc hcr
  by_cases h : c = n
  · subst h
    refine ⟨_, Store.read_write_same _ _ _, .inr ⟨hn, hpx, hq1, p, q, rfl, hp, hp', ?_, rfl⟩⟩
    rw [Store.read_write_other _ _ (by omega)]; exact hq
  · obtain ⟨e, he, hs⟩ := hd c (by omega) hcr
    refine ⟨e, by rw [Store.read_write_other _ _ h]; exact he, ?_⟩
    rcases hs with hs | ⟨h1, h2, h3, p', q', h4, h5, h6, h7, h8⟩
    · exact .inl hs
    · exact .inr ⟨h1, h2, h3, p', q', h4, h5, h6, by rw [Store.read_write_other _ _ (by omega)]; exact h7, h8⟩

theorem nextFree_succ {n : BitVec 13} (h : n.toNat < Config.codeSpace) : (n + 1#13).toNat = n.toNat + 1 := by
  have hd : Config.codeSpace = 4096 := rfl
  rw [BitVec.toNat_add]
  show (n.toNat + 1) % 2 ^ 13 = _
  omega

/-! ## The width schedule -/

/-- The width of the next code, by `nextFreeCode` (30_encoding.md R79). -/
theorem width_start {r : Byte} (h : rootOk r = true) :
    r.toNat + 1 = min Config.maxCodeSize (Nat.log2 (firstFreeOf r) + 1) := by
  obtain ⟨h1, h2⟩ := (rootOk_iff r).1 h
  have hb := clearOf_bounds h
  have hl : Nat.log2 (firstFreeOf r) = r.toNat := by
    rw [Nat.log2_eq_iff (by rw [firstFreeOf_eq]; omega), firstFreeOf_eq]
    have : (2 : Nat) ^ (r.toNat + 1) = 2 * clearOf r := by rw [Nat.pow_succ, Nat.mul_comm]; rfl
    constructor
    · show clearOf r ≤ _; omega
    · omega
  rw [hl, show Config.maxCodeSize = 12 from rfl]
  omega

/-- One increment moves the schedule by at most one bit, and GrowCodeSize's test finds exactly when (43_dictionary.md
R173, R174). -/
theorem width_step {n w : Nat} (hn : 0 < n) (hn2 : n < Config.codeSpace)
    (hw : w = min Config.maxCodeSize (Nat.log2 n + 1)) :
    (if n + 1 = 2 ^ w ∧ w < Config.maxCodeSize then w + 1 else w) =
      min Config.maxCodeSize (Nat.log2 (n + 1) + 1) := by
  have hd : Config.codeSpace = 2 ^ 12 := rfl
  have hm : Config.maxCodeSize = 12 := rfl
  obtain ⟨k, hk⟩ : ∃ k, Nat.log2 n = k := ⟨_, rfl⟩
  have hk2 := (Nat.log2_eq_iff (by omega)).1 hk
  have hk3 : k < 12 := by
    by_contra hc
    have : (2 : Nat) ^ 12 ≤ 2 ^ k := Nat.pow_le_pow_right (by omega) (by omega)
    omega
  have hw2 : w = k + 1 := by rw [hw, hk, hm]; omega
  subst hw2
  rw [hm]
  by_cases he : n + 1 = 2 ^ (k + 1)
  · have hl : Nat.log2 (n + 1) = k + 1 := by
      rw [Nat.log2_eq_iff (by omega)]
      have : (2 : Nat) ^ (k + 1) < 2 ^ (k + 1 + 1) := Nat.pow_lt_pow_right (by omega) (by omega)
      omega
    rw [hl]
    split <;> omega
  · have hl : Nat.log2 (n + 1) = k := by
      rw [Nat.log2_eq_iff (by omega)]; omega
    rw [hl]
    simp only [he, false_and, if_false]
    omega

theorem width_range {r : Byte} {n w : Nat} (hr : rootOk r = true) (hn : firstFreeOf r ≤ n)
    (hw : w = min Config.maxCodeSize (Nat.log2 n + 1)) : r.toNat + 1 ≤ w ∧ 3 ≤ w ∧ w ≤ 12 := by
  have hm : Config.maxCodeSize = 12 := rfl
  obtain ⟨h1, h2⟩ := (rootOk_iff r).1 hr
  have hl : r.toNat ≤ Nat.log2 n := by
    rw [Nat.le_log2 (by rw [firstFreeOf_eq] at hn; omega)]
    rw [firstFreeOf_eq] at hn
    show clearOf r ≤ n
    omega
  omega

theorem growCodeSize_toNat (s : State) :
    (growCodeSize s).codeSize.toNat =
      if s.nextFreeCode.toNat = 2 ^ s.codeSize.toNat ∧ s.codeSize.toNat < Config.maxCodeSize
      then s.codeSize.toNat + 1 else s.codeSize.toNat := by
  have hm : Config.maxCodeSize = 12 := rfl
  unfold growCodeSize growsNow
  by_cases h : s.nextFreeCode.toNat = 2 ^ s.codeSize.toNat ∧ s.codeSize.toNat < Config.maxCodeSize
  · rw [if_pos h, if_pos (by simp [h.1, h.2])]
    show (s.codeSize.toNat + 1) % 2 ^ 4 = _
    omega
  · rw [if_neg h, if_neg (by simpa using h)]

end Sys2Proof.Machine
end

