-- ==== Sys2Proof/Laws/Frames.lean ====
section
/-! SUPPORT. Inversion lemmas: what each shared operation changes when it goes on, in every state, and that it keeps the
canonical forms. -/

namespace Sys2Proof.Machine

/-- `t` differs from `s` at most in what emission writes. -/
def EmitFrame (s t : State) : Prop :=
  t = { s with out := t.out, outCount := t.outCount, stack := t.stack, sp := t.sp }

theorem EmitFrame.refl (s : State) : EmitFrame s s := rfl

theorem EmitFrame.trans {s t u : State} (h1 : EmitFrame s t) (h2 : EmitFrame t u) : EmitFrame s u := by
  unfold EmitFrame at *
  rw [h2, h1]

theorem putPixel_emitFrame (v : Byte) (s : State) : EmitFrame s (putPixel v s) := by
  unfold EmitFrame putPixel
  split <;> rfl

/-- AddEntry goes on exactly when there is room and slot `p` is specified, and then it writes one slot and moves the
width schedule (43_dictionary.md R172, R173). -/
theorem addEntry_eq_next {p : Code} {px : Byte} {s t : State} (h : addEntry p px s = .next t) :
    s.nextFreeCode.toNat < Config.codeSpace ∧
      ∃ q, readSlot p s = some q ∧ t = growCodeSize (defineSlot ⟨some p, px, q.firstPixel⟩ s) := by
  unfold addEntry at h
  split at h
  · next hlt =>
    split at h
    · cases h
    · next q hq => cases h; exact ⟨hlt, q, hq, rfl⟩
  · cases h

theorem push_eq_next {v : Byte} {s t : State} (h : push v s = .next t) :
    s.sp.toNat < Config.stackDepth ∧
      t = { s with stack := Store.write s.stack s.sp.toNat v, sp := s.sp + 1#13 } := by
  unfold push at h
  split at h
  · next hlt => cases h; exact ⟨hlt, rfl⟩
  · cases h

theorem popPixel_eq_next {s t : State} (h : popPixel s = .next t) :
    ∃ v, Store.read s.stack (s.sp - 1#13).toNat = some v ∧
      t = putPixel v { s with stack := Store.erase s.stack (s.sp - 1#13).toNat, sp := s.sp - 1#13 } := by
  unfold popPixel at h
  split at h
  · cases h
  · next v hv => cases h; exact ⟨v, hv, rfl⟩

theorem walkChain_frame {fuel : Nat} {k : Code} {s t : State} (h : walkChain fuel k s = .next t) :
    t = { s with stack := t.stack, sp := t.sp } ∧ (Memory.wf s.stack → Memory.wf t.stack) := by
  induction fuel generalizing k s with
  | zero => cases h
  | succ n ih =>
    unfold walkChain at h
    split at h
    · cases h
    · obtain ⟨u, hu, h⟩ := andThen_eq_next h
      obtain ⟨-, rfl⟩ := push_eq_next hu
      split at h
      · cases h; exact ⟨rfl, fun hw => Store.write_wf _ _ hw⟩
      · obtain ⟨h1, h2⟩ := ih h
        exact ⟨h1, fun hw => h2 (Store.write_wf _ _ hw)⟩

theorem drainStack_frame {n : Nat} {s t : State} (h : drainStack n s = .next t) :
    EmitFrame s t ∧ (Memory.wf s.stack → Memory.wf t.stack) ∧ (Memory.wf s.out → Memory.wf t.out) := by
  induction n generalizing s with
  | zero => cases h; exact ⟨EmitFrame.refl _, id, id⟩
  | succ n ih =>
    obtain ⟨u, hu, h⟩ := andThen_eq_next (f := drainStack n) h
    obtain ⟨v, -, rfl⟩ := popPixel_eq_next hu
    obtain ⟨h1, h2, h3⟩ := ih h
    refine ⟨EmitFrame.trans ?_ h1, fun hw => h2 ?_, fun hw => h3 ?_⟩
    · exact EmitFrame.trans (t := { s with stack := Store.erase s.stack (s.sp - 1#13).toNat, sp := s.sp - 1#13 }) rfl
        (putPixel_emitFrame _ _)
    · rw [putPixel_stack]; exact Store.erase_wf _ hw
    · rw [putPixel_out]
      split
      · exact Store.write_wf _ _ hw
      · exact hw

/-- Emission changes the output buffer, `outCount` and the stack, and nothing else (43_dictionary.md R175). -/
theorem emit_frame {c : Code} {s t : State} (h : emit c s = .next t) :
    EmitFrame s t ∧ (Memory.wf t.stack) ∧ (Memory.wf s.out → Memory.wf t.out) := by
  obtain ⟨u, hu, h⟩ := andThen_eq_next h
  obtain ⟨h1, h2⟩ := walkChain_frame hu
  obtain ⟨h3, h4, h5⟩ := drainStack_frame h
  refine ⟨EmitFrame.trans ?_ h3, h4 (h2 Store.wf_nil), fun hw => h5 ?_⟩
  · unfold EmitFrame; rw [h1]
  · rw [h1]; exact hw

/-- `t` differs from `s` at most in what AddEntry writes. -/
def EntryFrame (s t : State) : Prop :=
  t = { s with dictionary := t.dictionary, nextFreeCode := t.nextFreeCode, codeSize := t.codeSize }

theorem addEntry_frame {p : Code} {px : Byte} {s t : State} (h : addEntry p px s = .next t) :
    EntryFrame s t ∧ (Store.wf s.dictionary → Store.wf t.dictionary) := by
  obtain ⟨-, q, -, rfl⟩ := addEntry_eq_next h
  constructor
  · unfold EntryFrame growCodeSize
    split <;> rfl
  · intro hw
    rw [growCodeSize_dictionary, defineSlot_dictionary]
    exact Store.write_wf _ _ hw

/-- What an AddEntry that goes on does, in Safety's words (43_dictionary.md R172, R173). -/
theorem addEntry_added {p : Code} {px : Byte} {q : Slot} {s t : State} (h : addEntry p px s = .next t)
    (hq : readSlot p s = some q) : EntryAdded ⟨some p, px, q.firstPixel⟩ s t := by
  obtain ⟨hn, q', hq', rfl⟩ := addEntry_eq_next h
  rw [hq] at hq'; cases hq'
  have hc : Config.codeSpace = 4096 := rfl
  have hnf : (s.nextFreeCode + 1#13).toNat = s.nextFreeCode.toNat + 1 := by
    rw [BitVec.toNat_add]
    show (s.nextFreeCode.toNat + 1) % 2 ^ 13 = _
    omega
  refine ⟨fun a => by simp [Store.read_write], ?_, ?_⟩
  · rw [growCodeSize_nextFreeCode, defineSlot_nextFreeCode, hnf]
  · rw [growCodeSize_toNat, defineSlot_nextFreeCode, hnf]; rfl

/-! ## The accepted classes, step by step -/

/-- CheckComplete in a running block (43_dictionary.md R177). -/
theorem acceptCode_checked {c : Code} {s : State} (h : s.status = .run) : CompletionChecked (acceptCode c s) := by
  unfold CompletionChecked acceptCode checkComplete isComplete
  by_cases h2 : s.outCount = s.expected <;> simp [h, h2]

theorem execCodeFirst_eq_next {c : Code} {s t : State} (h : execCodeFirst c s = .next t) :
    ∃ u, emit c s = .next u ∧ t = acceptCode c u := by
  obtain ⟨u, hu, h⟩ := andThen_eq_next h
  cases h
  exact ⟨u, hu, rfl⟩

theorem execCodeKwkwk_eq_next {c : Code} {s t : State} (h : execCodeKwkwk c s = .next t) :
    ∃ p q u v, s.previousCode = some p ∧ readSlot p s = some q ∧ addEntry p q.firstPixel s = .next u ∧
      emit c u = .next v ∧ t = acceptCode c v := by
  unfold execCodeKwkwk at h
  split at h
  · cases h
  · next p hp =>
    split at h
    · cases h
    · next q hq =>
      obtain ⟨u, hu, h⟩ := andThen_eq_next h
      obtain ⟨v, hv, h⟩ := andThen_eq_next h
      cases h
      exact ⟨p, q, u, v, hp, hq, hu, hv, rfl⟩

theorem execCodeKnown_eq_next {c : Code} {s t : State} (h : execCodeKnown c s = .next t) :
    ∃ p q u v, s.previousCode = some p ∧ emit c s = .next u ∧ readSlot c u = some q ∧
      addEntry p q.firstPixel u = .next v ∧ t = acceptCode c v := by
  unfold execCodeKnown at h
  split at h
  · cases h
  · next p hp =>
    obtain ⟨u, hu, h⟩ := andThen_eq_next h
    split at h
    · cases h
    · next q hq =>
      obtain ⟨v, hv, h⟩ := andThen_eq_next h
      cases h
      exact ⟨p, q, u, v, hp, hu, hq, hv, rfl⟩

/-- A read on the read port changes the host's last read only, and answers the register (10_state.md R35). -/
theorem readPort_eq_next {r : ReadReg} {s t : State} (h : readPort r s = .next t) :
    isSpecified s r = true ∧ t = { s with readData := some (registerData s r) } := by
  unfold readPort at h
  split at h
  · next hs => cases h; exact ⟨hs, rfl⟩
  · cases h

/-- A read of the output buffer changes the host's last read, and the free-value counter where the block wrote nothing
(70_reset_and_hazards.md R243). -/
theorem readOutput_eq_next {i : Count} {s t : State} (h : readOutput i s = .next t) :
    (∃ v, writtenPixel i s = some v ∧ t = { s with readData := some (.pixel v) }) ∨
    (writtenPixel i s = none ∧ i.toNat < s.expected.toNat ∧
      t = { s with readData := some (.pixel (Config.freeOutput s.freeTick)), freeTick := s.freeTick + 1 }) := by
  unfold readOutput at h
  cases hw : writtenPixel i s with
  | some v => rw [hw] at h; cases h; exact .inl ⟨v, rfl, rfl⟩
  | none =>
    rw [hw] at h
    dsimp only at h
    split at h
    · next hlt => cases h; exact .inr ⟨rfl, hlt, rfl⟩
    · cases h

theorem resetDictionary_frame (s : State) : resetDictionary s =
    { s with
      dictionary := (resetDictionary s).dictionary
      nextFreeCode := (resetDictionary s).nextFreeCode
      codeSize := (resetDictionary s).codeSize
      previousCode := (resetDictionary s).previousCode } := rfl

end Sys2Proof.Machine
end

