-- ==== Sys2Proof/Laws/Codes.lean ====
section
/-! SUPPORT. What the emitting code classes do in the states a run reaches, and that every dispatch keeps the invariants
of Safety. -/

namespace Sys2Proof.Machine

/-! ## Dispatch is exec of the classified instruction -/

/-- The dispatcher runs the instruction the decoder reads (42_code_dispatch.md R148, 30_encoding.md R80). -/
theorem dispatch_eq_exec (c : Code) (s : State) : dispatch c s = exec (decodeCode s.ctx c) s := by
  unfold dispatch decodeCode
  split
  · rfl
  · split
    · rfl
    · split
      · rfl
      · split
        · split <;> rfl
        · split
          · rfl
          · split <;> rfl

/-- The class of a code is an instruction that code spells (30_encoding.md R77, R80). -/
theorem encode_decodeCode (x : CodeCtx) (c : Code) : encode (decodeCode x c) = .code c := by
  unfold decodeCode
  repeat' split
  all_goals rfl

/-! ## The parts of an accepted code -/

/-- Emission of a live code (43_dictionary.md R175). -/
theorem emit_live {s : State} {c : Code} (hm : MidCode s) (hrun : s.status = .run)
    (hc : c.toNat < s.nextFreeCode.toNat) (hc' : notReserved s.rootSize c.toNat) :
    ∃ str e, stringOf s c = some str ∧ readSlot c s = some e ∧ e.firstPixel.toNat < clearOf s.rootSize ∧
      emit c s = .next (putString str s) ∧ MidCode (putString str s) := by
  have hl := hm.live hrun
  obtain ⟨str, e, h1, h2, -, h4, -⟩ := stringOf_of_dictInv hl.root hl.dict c hc hc'
  have hfp : e.firstPixel.toNat < clearOf s.rootSize := by
    obtain ⟨e', he', hs⟩ := hl.dict _ hc hc'
    unfold readSlot at h2
    rw [h2] at he'; cases he'
    exact slotInv_firstPixel hl.root hs
  refine ⟨str, e, h1, h2, hfp, ?_, ?_⟩
  · rw [emit_eq h1, putString_frame]
    have := hm.spZero
    have := hm.stackEmpty
    cases s
    simp_all
  · have hf := putString_frame str s
    have hcount := putString_outCount str s hm.countLe
    have hread := putString_read str s hm.countLe
    have hwf := putString_wf str s hm.outWf
    generalize putString str s = t at hf hcount hread hwf ⊢
    obtain ⟨ha, hb, hc1, hd, he, hf1, hg, hh, hi, hj, hk, hl1, hm1⟩ := hm
    rw [hf]
    refine ⟨hwf, hb, hc1, hd, he, hf1, ?_, ?_, ?_, ?_, hk, hl1, ?_⟩
    · simp only; omega
    · intro h; exact absurd (hrun.symm.trans h) (by decide)
    · intro h; rcases h with h | h <;> exact absurd (hrun.symm.trans h) (by decide)
    · intro i hi'
      simp only at hi' ⊢
      rw [hread]
      split
      · next hin =>
        have hlt : i - s.outCount.toNat < str.length := by omega
        exact ⟨str[i - s.outCount.toNat], List.getElem?_eq_getElem hlt, h4 _ (List.getElem_mem hlt)⟩
      · exact hj i (by omega)
    · intro _
      exact ⟨hl.root, hl.nextLow, hl.nextHigh, hl.width, hl.prevNone, hl.prevSome, hl.dict⟩

/-- AddEntry after an accepted code (43_dictionary.md R172, R173). -/
theorem addEntry_live {s : State} {p : Code} {px : Byte} (hm : MidCode s) (hrun : s.status = .run)
    (hp : s.previousCode = some p) (hpx : px.toNat < clearOf s.rootSize)
    (hn : s.nextFreeCode.toNat < Config.codeSpace) :
    ∃ t, addEntry p px s = .next t ∧ MidCode t ∧ t.nextFreeCode.toNat = s.nextFreeCode.toNat + 1 ∧
      EntryFrame s t := by
  have hl := hm.live hrun
  obtain ⟨h1, h2⟩ := hl.prevSome p hp
  obtain ⟨q, hq, hs⟩ := hl.dict _ h1 h2
  have heq : addEntry p px s = .next (growCodeSize (defineSlot ⟨some p, px, q.firstPixel⟩ s)) := by
    unfold addEntry readSlot
    rw [if_pos hn, hq]
  have hnf := nextFree_succ hn
  refine ⟨_, heq, ?_, ?_, (addEntry_frame heq).1⟩
  · obtain ⟨ha, hb, hc1, hd, he, hf1, hg, hh, hi, hj, hk, hl1, hm1⟩ := hm
    refine ⟨by simpa using ha, ?_, by simpa using hc1, by simpa using hd, by simpa using he, by simpa using hf1,
      by simpa using hg, by simpa using hh, by simpa using hi, by simpa using hj, by simpa using hk,
      by simpa using hl1, ?_⟩
    · simpa using Store.write_wf _ _ hb
    · intro _
      have hpos : 0 < s.nextFreeCode.toNat := by omega
      refine ⟨by simpa using hl.root, ?_, ?_, ?_, ?_, ?_, ?_⟩
      · simp only [growCodeSize_rootSize, growCodeSize_nextFreeCode, defineSlot_rootSize, defineSlot_nextFreeCode,
          hnf]
        have := hl.nextLow; omega
      · simp only [growCodeSize_nextFreeCode, defineSlot_nextFreeCode, hnf]; omega
      · rw [growCodeSize_toNat]
        simp only [growCodeSize_nextFreeCode, defineSlot_nextFreeCode, defineSlot_codeSize, hnf]
        exact width_step hpos hn hl.width
      · simp [hp]
      · intro p' hp'
        simp only [growCodeSize_previousCode, defineSlot_previousCode, hp, Option.some.injEq] at hp'
        subst hp'
        simp only [growCodeSize_nextFreeCode, defineSlot_nextFreeCode, growCodeSize_rootSize, defineSlot_rootSize, hnf]
        exact ⟨by omega, h2⟩
      · simp only [growCodeSize_nextFreeCode, defineSlot_nextFreeCode, growCodeSize_rootSize, defineSlot_rootSize,
          growCodeSize_dictionary, defineSlot_dictionary, hnf]
        exact dictInv_write hl.root hl.dict hl.nextLow h1 h2 hpx hq
  · rw [growCodeSize_nextFreeCode, defineSlot_nextFreeCode, hnf]

/-- The end of an accepted code: `previousCode` is the code, and the block completes exactly when it is full
(43_dictionary.md R177). -/
theorem acceptCode_inv {s : State} {c : Code} (hm : MidCode s) (hrun : s.status = .run)
    (hc : c.toNat < s.nextFreeCode.toNat) (hc' : notReserved s.rootSize c.toNat) :
    Inv (acceptCode c s) := by
  have hl := hm.live hrun
  have hst : (acceptCode c s).status = if s.outCount = s.expected then .complete else .run := by
    unfold acceptCode checkComplete isComplete
    by_cases h : s.outCount = s.expected <;> simp [hrun, h]
  obtain ⟨ha, hb, hc1, hd, he, hf1, hg, hh, hi, hj, hk, hl1, hm1⟩ := hm
  have hcause : s.cause = Cause.none := by
    by_contra h; have := he.1 h; simp [hrun] at this
  have hfz : s.faultCode = 0#12 := hf1 (by simp [hrun])
  refine ⟨⟨by simpa using ha, by simpa using hb, by simpa using hc1, by simpa using hd, ?_, by simp [hfz],
    by simpa using hg, ?_, ?_, by simpa using hj, by simpa using hk, by simpa using hl1, ?_⟩, ?_⟩
  · rw [hst, acceptCode_cause, hcause]; split <;> simp
  · rw [hst]; split
    · intro _; simpa using ‹s.outCount = s.expected›
    · intro h; cases h
  · rw [hst]; split <;> simp
  · intro _
    refine ⟨by simpa using hl.root, by simpa using hl.nextLow, by simpa using hl.nextHigh, by simpa using hl.width,
      by simp, ?_, by simpa using hl.dict⟩
    intro p hp
    simp only [acceptCode_previousCode, Option.some.injEq] at hp
    subst hp
    simpa using ⟨hc, hc'⟩
  · rw [hst]; split
    · intro h; cases h
    · next hne =>
      intro _
      simp only [acceptCode_outCount, acceptCode_expected]
      have : s.outCount.toNat ≠ s.expected.toNat := fun h => hne (BitVec.eq_of_toNat_eq h)
      omega

/-! ## The classes -/

theorem not_isEoi {x : CodeCtx} {c : Code} (h : ¬ isEoi x c = true) : c.toNat ≠ eoiOf x.rootSize := by
  simpa [isEoi] using h

theorem not_isClear {x : CodeCtx} {c : Code} (h : ¬ isClear x c = true) : c.toNat ≠ clearOf x.rootSize := by
  simpa [isClear] using h

theorem not_isBeyond {x : CodeCtx} {c : Code} (h : ¬ isBeyond x c = true) : c.toNat ≤ x.nextFreeCode.toNat := by
  simpa [isBeyond] using h

theorem not_isNext {x : CodeCtx} {c : Code} (h : ¬ isNext x c = true) : c.toNat ≠ x.nextFreeCode.toNat := by
  simpa [isNext] using h

/-- A corrupt stop of a block in RUN (60_exceptions.md R203). -/
theorem raiseCorrupt_inv {s : State} (k : Cause) (v : Code) (hk : k ≠ Cause.none) (hi : Inv s) :
    Inv (raiseCorrupt k v s) := by
  obtain ⟨⟨ha, hb, hc1, hd, he, hf1, hg, hh, hi, hj, hk, hl1, hm1⟩, -⟩ := hi
  exact ⟨⟨ha, hb, hc1, hd, by simpa using ‹k ≠ Cause.none›, by simp, hg, by simp, by simp, hj, hk, hl1, by simp⟩,
    by simp⟩

/-- A reset inside a running block (42_code_dispatch.md R142). -/
theorem resetDictionary_inv {s : State} (hi : Inv s) (hr : rootOk s.rootSize = true) : Inv (resetDictionary s) := by
  obtain ⟨⟨ha, hb, hc1, hd, he, hf1, hg, hh, hi, hj, hk, hl1, hm1⟩, hroom⟩ := hi
  refine ⟨⟨ha, ?_, hc1, hd, he, hf1, hg, hh, hi, hj, hk, hl1, ?_⟩, hroom⟩
  · exact writeLiterals_wf _ hb
  · intro _
    have hn := firstFree_toNat hr
    refine ⟨hr, ?_, ?_, ?_, ?_, ?_, ?_⟩
    · simp [hn]
    · have := clearOf_bounds hr
      rw [resetDictionary_nextFreeCode, hn, firstFreeOf_eq, show Config.codeSpace = 4096 from rfl]; omega
    · simp only [resetDictionary_nextFreeCode, resetDictionary_codeSize, hn, initialCodeSize_toNat hr]
      exact width_start hr
    · simp [hn]
    · simp
    · simp only [resetDictionary_nextFreeCode, resetDictionary_rootSize, resetDictionary_dictionary, hn]
      exact dictInv_writeLiterals _ _

/-- Every dispatch in a running block goes on and keeps the invariants: no code faults (60_exceptions.md R201). -/
theorem dispatch_inv {s : State} (c : Code) (hi : Inv s) (hrun : s.status = .run) :
    ∃ t, dispatch c s = .next t ∧ Inv t := by
  have hl := hi.live hrun
  have hm : MidCode s := hi.toMidCode
  have hcause : s.cause = Cause.none := by
    by_contra h; have := hi.causeIff.1 h; simp [hrun] at this
  unfold dispatch
  split
  · refine ⟨_, rfl, ⟨⟨hi.outWf, hi.dictWf, hi.spZero, hi.stackEmpty, ?_, ?_, hi.countLe, by simp, ?_, hi.written,
      hi.accBits, hi.nbitsLe, by simp⟩, by simp⟩⟩
    · simp [hcause]
    · intro _; exact hi.faultZero (by simp [hrun])
    · intro _; exact hi.room hrun
  next hEoi =>
  split
  · exact ⟨_, rfl, raiseCorrupt_inv _ _ (by simp) hi⟩
  next hBeyond =>
  split
  · exact ⟨_, rfl, resetDictionary_inv hi hl.root⟩
  next hClear =>
  have hres : notReserved s.rootSize c.toNat := ⟨not_isClear hClear, not_isEoi hEoi⟩
  have hle := not_isBeyond hBeyond
  simp only [ctx_nextFreeCode] at hle
  split
  · split
    · exact ⟨_, rfl, raiseCorrupt_inv _ _ (by simp) hi⟩
    next hNext =>
    have hne := not_isNext hNext
    simp only [ctx_nextFreeCode] at hne
    have hlt : c.toNat < s.nextFreeCode.toNat := by omega
    obtain ⟨str, e, h1, h2, h3, h4, h5⟩ := emit_live hm hrun hlt hres
    refine ⟨acceptCode c (putString str s), ?_, acceptCode_inv h5 ?_ ?_ ?_⟩
    · unfold execCodeFirst; rw [h4]; rfl
    · rw [putString_frame]; exact hrun
    · rw [putString_frame]; exact hlt
    · rw [putString_frame]; exact hres
  next hFirst =>
  obtain ⟨p, hp⟩ : ∃ p, s.previousCode = some p := by
    cases h : s.previousCode with
    | none => exact absurd (by simp [isFirst, h]) hFirst
    | some p => exact ⟨p, rfl⟩
  obtain ⟨hp1, hp2⟩ := hl.prevSome p hp
  split
  · next hNext =>
    have heq : c.toNat = s.nextFreeCode.toNat := by simpa [isNext] using hNext
    have hroom : s.nextFreeCode.toNat < Config.codeSpace := by rw [← heq]; exact c.isLt
    obtain ⟨q, hq, hs⟩ := hl.dict _ hp1 hp2
    obtain ⟨t, h1, h2, h3, h4⟩ := addEntry_live hm hrun hp (slotInv_firstPixel hl.root hs) hroom
    have hrun2 : t.status = .run := by rw [h4]; exact hrun
    have hroot : t.rootSize = s.rootSize := by rw [h4]
    obtain ⟨str, e, h5, h6, h7, h8, h9⟩ := emit_live (c := c) h2 hrun2 (by omega) (by rw [hroot]; exact hres)
    refine ⟨acceptCode c (putString str t), ?_, acceptCode_inv h9 ?_ ?_ ?_⟩
    · unfold execCodeKwkwk readSlot
      simp only [hp, hq]
      rw [h1, andThen_next, h8, andThen_next]
    · rw [putString_frame]; exact hrun2
    · rw [putString_frame]; show c.toNat < t.nextFreeCode.toNat; omega
    · rw [putString_frame]; show notReserved t.rootSize _; rw [hroot]; exact hres
  next hNext =>
  split
  · exact ⟨_, rfl, raiseCorrupt_inv _ _ (by simp) hi⟩
  next hFull =>
  have hne := not_isNext hNext
  simp only [ctx_nextFreeCode] at hne
  have hlt : c.toNat < s.nextFreeCode.toNat := by omega
  have hroom : s.nextFreeCode.toNat < Config.codeSpace := by
    have h1 := hl.nextHigh
    have h2 : s.nextFreeCode.toNat ≠ Config.codeSpace := by simpa [isFull] using hFull
    omega
  obtain ⟨str, e, h1, h2, h3, h4, h5⟩ := emit_live hm hrun hlt hres
  have hf := putString_frame str s
  have hrun2 : (putString str s).status = .run := by rw [hf]; exact hrun
  have hroot : (putString str s).rootSize = s.rootSize := by rw [hf]
  have hnf : (putString str s).nextFreeCode = s.nextFreeCode := by rw [hf]
  have hpc : (putString str s).previousCode = some p := by rw [hf]; exact hp
  obtain ⟨t, h6, h7, h8, h9⟩ := addEntry_live (px := e.firstPixel) h5 hrun2 hpc (by rw [hroot]; exact h3)
    (by rw [hnf]; exact hroom)
  refine ⟨acceptCode c t, ?_, acceptCode_inv h7 ?_ ?_ ?_⟩
  · unfold execCodeKnown
    simp only [hp]
    have hslot : readSlot c (putString str s) = some e := by rw [hf]; exact h2
    rw [h4, andThen_next, hslot]
    dsimp only
    rw [h6, andThen_next]
  · rw [h9]; exact hrun2
  · rw [h8, hnf]; omega
  · rw [h9]; show notReserved (putString str s).rootSize _; rw [hroot]; exact hres

end Sys2Proof.Machine
end

