-- ==== Sys2Proof/Laws/Stream.lean ====
section
/-! SUPPORT. The code stream (41_code_stream.md): AppendByte and ExtractCode as arithmetic, the decode loop as a run of
code-class instructions, and the commands in the states a run reaches. -/

namespace Sys2Proof.Machine

/-! ## AppendByte and ExtractCode -/

theorem appendByte_acc_toNat {s : State} (b : Byte) (h : s.acc.toNat < 2 ^ s.nbits.toNat) (hn : s.nbits.toNat ≤ 24) :
    (appendByte b s).acc.toNat = s.acc.toNat + b.toNat * 2 ^ s.nbits.toNat := by
  have hb := b.isLt
  have hlt : b.toNat * 2 ^ s.nbits.toNat < 2 ^ 32 := by
    calc b.toNat * 2 ^ s.nbits.toNat < 2 ^ 8 * 2 ^ s.nbits.toNat :=
          Nat.mul_lt_mul_of_pos_right hb (Nat.two_pow_pos _)
      _ = 2 ^ (8 + s.nbits.toNat) := (Nat.pow_add _ _ _).symm
      _ ≤ 2 ^ 32 := Nat.pow_le_pow_right (by omega) (by omega)
  rw [appendByte_acc, BitVec.toNat_or, BitVec.toNat_shiftLeft, BitVec.toNat_setWidth,
    Nat.mod_eq_of_lt (by omega : b.toNat < 2 ^ 32), Nat.shiftLeft_eq, Nat.mod_eq_of_lt hlt, Nat.or_comm,
    ← Nat.shiftLeft_eq, ← Nat.shiftLeft_add_eq_or_of_lt h, Nat.shiftLeft_eq, Nat.add_comm]

theorem appendByte_nbits_toNat {s : State} (b : Byte) (hn : s.nbits.toNat ≤ 23) :
    (appendByte b s).nbits.toNat = s.nbits.toNat + 8 := by
  rw [appendByte_nbits, BitVec.toNat_add]
  show (s.nbits.toNat + 8) % 2 ^ 5 = _
  omega

theorem consumeCode_acc_toNat (s : State) : (consumeCode s).acc.toNat = s.acc.toNat / 2 ^ s.codeSize.toNat := by
  rw [consumeCode_acc, BitVec.toNat_ushiftRight, Nat.shiftRight_eq_div_pow]

theorem consumeCode_nbits_toNat {s : State} (h : s.codeSize.toNat ≤ s.nbits.toNat) :
    (consumeCode s).nbits.toNat = s.nbits.toNat - s.codeSize.toNat := by
  have h1 := s.codeSize.isLt
  have h2 := s.nbits.isLt
  rw [consumeCode_nbits, BitVec.toNat_sub, BitVec.toNat_setWidth]
  omega

theorem codeReady_iff (s : State) :
    codeReady s = true ↔ s.status = .run ∧ s.codeSize.toNat ≤ s.nbits.toNat := by
  simp [codeReady]

/-! ## The invariants along the stream -/

theorem appendByte_inv {s : State} (b : Byte) (hi : Inv s) (hn : s.nbits.toNat ≤ 11) : Inv (appendByte b s) := by
  have h1 := appendByte_acc_toNat b hi.accBits (by omega)
  have h2 := appendByte_nbits_toNat b (s := s) (by omega)
  obtain ⟨⟨ha, hb, hc1, hd, he, hf1, hg, hh, hi, hj, hk, hl1, hm1⟩, hroom⟩ := hi
  refine ⟨⟨ha, hb, hc1, hd, he, hf1, hg, hh, hi, hj, ?_, by omega, ?_⟩, hroom⟩
  · rw [h1, h2, Nat.pow_add]
    have := b.isLt
    have h3 : (b.toNat + 1) * 2 ^ s.nbits.toNat ≤ 2 ^ 8 * 2 ^ s.nbits.toNat := Nat.mul_le_mul_right _ (by omega)
    rw [Nat.add_mul] at h3
    rw [Nat.mul_comm (2 ^ s.nbits.toNat)]
    omega
  · intro hr
    have hl := hm1 hr
    exact ⟨hl.root, hl.nextLow, hl.nextHigh, hl.width, hl.prevNone, hl.prevSome, hl.dict⟩

theorem consumeCode_inv {s : State} (hi : Inv s) (hr : codeReady s = true) : Inv (consumeCode s) := by
  obtain ⟨hrun, hle⟩ := (codeReady_iff s).1 hr
  have h1 := consumeCode_acc_toNat s
  have h2 := consumeCode_nbits_toNat hle
  obtain ⟨⟨ha, hb, hc1, hd, he, hf1, hg, hh, hi, hj, hk, hl1, hm1⟩, hroom⟩ := hi
  refine ⟨⟨ha, hb, hc1, hd, he, hf1, hg, hh, hi, hj, ?_, by omega, ?_⟩, hroom⟩
  · rw [h1, h2, Nat.div_lt_iff_lt_mul (Nat.two_pow_pos _), ← Nat.pow_add]
    rwa [Nat.sub_add_cancel hle]
  · intro hr
    have hl := hm1 hr
    exact ⟨hl.root, hl.nextLow, hl.nextHigh, hl.width, hl.prevNone, hl.prevSome, hl.dict⟩

/-- A running block reads codes of 3 to 12 bits (10_state.md R27). -/
theorem live_width {s : State} (hl : Live s) : 3 ≤ s.codeSize.toNat ∧ s.codeSize.toNat ≤ 12 :=
  (width_range hl.root hl.nextLow hl.width).2

/-! ## What a dispatch leaves alone -/

/-- The part of the state no code class writes (42_code_dispatch.md R149). -/
structure CodeFrame (s t : State) : Prop where
  rootSize : t.rootSize = s.rootSize
  expected : t.expected = s.expected
  acc : t.acc = s.acc
  nbits : t.nbits = s.nbits
  pending : t.pending = s.pending
  result : t.result = s.result
  readData : t.readData = s.readData
  freeTick : t.freeTick = s.freeTick

theorem CodeFrame.trans {s t u : State} (h1 : CodeFrame s t) (h2 : CodeFrame t u) : CodeFrame s u :=
  ⟨h2.1.trans h1.1, h2.2.trans h1.2, h2.3.trans h1.3, h2.4.trans h1.4, h2.5.trans h1.5, h2.6.trans h1.6,
    h2.7.trans h1.7, h2.8.trans h1.8⟩

theorem EmitFrame.codeFrame {s t : State} (h : EmitFrame s t) : CodeFrame s t := by
  rw [h]; exact ⟨rfl, rfl, rfl, rfl, rfl, rfl, rfl, rfl⟩

theorem EntryFrame.codeFrame {s t : State} (h : EntryFrame s t) : CodeFrame s t := by
  rw [h]; exact ⟨rfl, rfl, rfl, rfl, rfl, rfl, rfl, rfl⟩

theorem acceptCode_codeFrame (c : Code) (s : State) : CodeFrame s (acceptCode c s) := by
  constructor <;> simp

theorem dispatch_frame {c : Code} {s t : State} (h : dispatch c s = .next t) : CodeFrame s t := by
  unfold dispatch at h
  split at h
  · cases h; exact ⟨rfl, rfl, rfl, rfl, rfl, rfl, rfl, rfl⟩
  split at h
  · cases h; exact ⟨rfl, rfl, rfl, rfl, rfl, rfl, rfl, rfl⟩
  split at h
  · cases h; exact ⟨rfl, rfl, rfl, rfl, rfl, rfl, rfl, rfl⟩
  split at h
  · split at h
    · cases h; exact ⟨rfl, rfl, rfl, rfl, rfl, rfl, rfl, rfl⟩
    · obtain ⟨u, hu, h⟩ := andThen_eq_next h
      cases h
      exact (emit_frame hu).1.codeFrame.trans (acceptCode_codeFrame _ _)
  split at h
  · unfold execCodeKwkwk at h
    split at h
    · cases h
    · split at h
      · cases h
      · obtain ⟨u, hu, h⟩ := andThen_eq_next h
        obtain ⟨v, hv, h⟩ := andThen_eq_next h
        cases h
        exact ((addEntry_frame hu).1.codeFrame.trans (emit_frame hv).1.codeFrame).trans (acceptCode_codeFrame _ _)
  split at h
  · cases h; exact ⟨rfl, rfl, rfl, rfl, rfl, rfl, rfl, rfl⟩
  · unfold execCodeKnown at h
    split at h
    · cases h
    · obtain ⟨u, hu, h⟩ := andThen_eq_next h
      split at h
      · cases h
      · obtain ⟨v, hv, h⟩ := andThen_eq_next h
        cases h
        exact ((emit_frame hu).1.codeFrame.trans (addEntry_frame hv).1.codeFrame).trans (acceptCode_codeFrame _ _)

/-! ## The decode loop -/

/-- One iteration in a state a run reaches: a code is extracted, its instruction is run, and the invariants hold again. -/
theorem decodeOne_inv {s : State} (hi : Inv s) (hr : codeReady s = true) :
    ∃ t, decodeOne s = .next t ∧ Inv t ∧ CodeFrame (consumeCode s) t ∧
      exec (decodeCode s.ctx (extractedCode s)) (consumeCode s) = .next t := by
  obtain ⟨hrun, -⟩ := (codeReady_iff s).1 hr
  obtain ⟨t, h1, h2⟩ := dispatch_inv (extractedCode s) (consumeCode_inv hi hr) hrun
  refine ⟨t, h1, h2, dispatch_frame h1, ?_⟩
  rw [← h1, dispatch_eq_exec, ctx_consumeCode]

/-- The decode loop goes on in every state a run reaches, keeps the invariants, and is a run of code-class
instructions, one for every 3 bits at most (41_code_stream.md R122). -/
theorem decodeLoop_inv {fuel : Nat} {s : State} (hi : Inv s) (hf : s.nbits.toNat ≤ fuel) :
    ∃ n t, decodeLoop fuel s = .next t ∧ Inv t ∧ codeReady t = false ∧ DecodeRun n s t ∧ 3 * n ≤ s.nbits.toNat ∧
      t.pending = s.pending ∧ t.rootSize = s.rootSize ∧ t.expected = s.expected := by
  induction fuel generalizing s with
  | zero =>
    have hn : codeReady s = false := by
      by_contra h
      obtain ⟨hrun, hle⟩ := (codeReady_iff s).1 (by simpa using h)
      have := live_width (hi.live hrun)
      omega
    refine ⟨0, s, ?_, hi, hn, .done s hn, by omega, rfl, rfl, rfl⟩
    simp [decodeLoop, hn]
  | succ f ih =>
    by_cases hr : codeReady s = true
    · obtain ⟨hrun, hle⟩ := (codeReady_iff s).1 hr
      have hw := live_width (hi.live hrun)
      obtain ⟨u, h1, h2, h3, h4⟩ := decodeOne_inv hi hr
      have hnb := consumeCode_nbits_toNat hle
      have hnu : u.nbits.toNat = s.nbits.toNat - s.codeSize.toNat := by rw [h3.nbits, hnb]
      obtain ⟨n, t, h5, h6, h7, h8, h9, h10, h11, h12⟩ := ih h2 (by omega)
      refine ⟨n + 1, t, ?_, h6, h7, .next n s u t hr h4 h8, by omega, ?_, ?_, ?_⟩
      · simp only [decodeLoop, hr, if_true]; rw [h1, andThen_next, h5]
      · rw [h10, h3.pending]; rfl
      · rw [h11, h3.rootSize]; rfl
      · rw [h12, h3.expected]; rfl
    · have hn : codeReady s = false := by simpa using hr
      refine ⟨0, s, ?_, hi, hn, .done s hn, by omega, rfl, rfl, rfl⟩
      simp [decodeLoop, hn]

/-- A relation that every extraction keeps, and that is reflexive and transitive, holds over the whole decode loop. -/
theorem decodeLoop_relates {R : State → State → Prop} (hrefl : ∀ s, R s s)
    (htrans : ∀ s t u, R s t → R t u → R s u)
    (hone : ∀ s t, s.status = .run → decodeOne s = .next t → R s t)
    {fuel : Nat} {s t : State} (h : decodeLoop fuel s = .next t) : R s t := by
  induction fuel generalizing s with
  | zero =>
    unfold decodeLoop at h
    split at h
    · cases h
    · cases h; exact hrefl _
  | succ n ih =>
    unfold decodeLoop at h
    split at h
    · next hc =>
      obtain ⟨u, hu, h⟩ := andThen_eq_next (f := decodeLoop n) h
      exact htrans _ _ _ (hone _ _ ((codeReady_iff s).1 hc).1 hu) (ih h)
    · cases h; exact hrefl _

/-- A state has one run of its decode loop. -/
theorem DecodeRun.unique {n m : Nat} {s t u : State} (h : DecodeRun n s t) (h' : DecodeRun m s u) :
    n = m ∧ t = u := by
  induction h generalizing m with
  | done s hs =>
    cases h' with
    | done => exact ⟨rfl, rfl⟩
    | next _ _ _ _ hr => rw [hs] at hr; cases hr
  | next n s s1 t hs he _ ih =>
    cases h' with
    | done _ hr => rw [hs] at hr; cases hr
    | next m _ s1' _ _ he' h' =>
      rw [he] at he'
      cases he'
      obtain ⟨rfl, rfl⟩ := ih h'
      exact ⟨rfl, rfl⟩

/-! ## The commands -/

theorem returnStatus_inv {s : State} (hi : Inv s) : Inv (returnStatus s) := by
  obtain ⟨⟨ha, hb, hc1, hd, he, hf1, hg, hh, hi, hj, hk, hl1, hm1⟩, hroom⟩ := hi
  refine ⟨⟨ha, hb, hc1, hd, he, hf1, hg, hh, hi, hj, hk, hl1, ?_⟩, hroom⟩
  intro hr
  have hl := hm1 hr
  exact ⟨hl.root, hl.nextLow, hl.nextHigh, hl.width, hl.prevNone, hl.prevSome, hl.dict⟩

/-- The invariants do not speak of the host's side of the ports, nor of the free-value counter. -/
theorem setPorts_inv {s : State} (p : List HostAction) (r : Option Status) (d : Option ReadData) (k : Nat)
    (hi : Inv s) : Inv { s with pending := p, result := r, readData := d, freeTick := k } := by
  obtain ⟨⟨ha, hb, hc1, hd, he, hf1, hg, hh, hi, hj, hk, hl1, hm1⟩, hroom⟩ := hi
  refine ⟨⟨ha, hb, hc1, hd, he, hf1, hg, hh, hi, hj, hk, hl1, ?_⟩, hroom⟩
  intro hr
  have hl := hm1 hr
  exact ⟨hl.root, hl.nextLow, hl.nextHigh, hl.width, hl.prevNone, hl.prevSome, hl.dict⟩

/-- Between commands a running block holds less than one code (10_state.md R30). -/
theorem nbits_le_of_not_ready {s : State} (hi : Inv s) (hr : codeReady s = false) (hrun : s.status = .run) :
    s.nbits.toNat ≤ 11 := by
  have hw := live_width (hi.live hrun)
  have : ¬ (s.status = .run ∧ s.codeSize.toNat ≤ s.nbits.toNat) := by
    rw [← codeReady_iff]; simp [hr]
  have h2 : ¬ s.codeSize.toNat ≤ s.nbits.toNat := fun h => this ⟨hrun, h⟩
  omega

/-- START keeps the invariants, whatever it is given (40_commands.md R100, R101). -/
theorem execStart_inv {s : State} (r : Byte) (n : Count) (hw : Memory.wf s.out) (hd : Store.wf s.dictionary) :
    ∃ t, execStart r n s = .next t ∧ Inv t ∧ codeReady t = false := by
  unfold execStart
  by_cases hr : rootOk r = true
  · simp only [hr, if_true]
    refine ⟨_, rfl, returnStatus_inv ?_, ?_⟩
    · by_cases hn : n = 0#32
      · subst hn
        simp only [if_true]
        refine ⟨⟨hw, writeLiterals_wf _ hd, rfl, rfl, by simp, by simp, by simp, by simp, by simp, ?_, by simp,
          by simp, by simp⟩, by simp⟩
        intro i hi; simp at hi
      · simp only [hn, if_false]
        have hpos : 0 < n.toNat := by
          rcases Nat.eq_zero_or_pos n.toNat with h | h
          · exact absurd (BitVec.eq_of_toNat_eq (by simpa using h)) hn
          · exact h
        have hfn := firstFree_toNat hr
        refine ⟨⟨hw, writeLiterals_wf _ hd, rfl, rfl, by simp, by simp, by simp, by simp, by simp, ?_, by simp,
          by simp, ?_⟩, ?_⟩
        · intro i hi; simp at hi
        · intro _
          refine ⟨hr, ?_, ?_, ?_, ?_, by simp, ?_⟩
          · simp only [resetDictionary_nextFreeCode, resetDictionary_rootSize, beginBlock_rootSize, hfn, le_refl]
          · have := clearOf_bounds hr
            simp only [resetDictionary_nextFreeCode, beginBlock_rootSize, hfn]
            rw [firstFreeOf_eq, show Config.codeSpace = 4096 from rfl]; omega
          · simp only [resetDictionary_nextFreeCode, resetDictionary_codeSize, beginBlock_rootSize, hfn,
              initialCodeSize_toNat hr]
            exact width_start hr
          · intro _
            simp only [resetDictionary_nextFreeCode, resetDictionary_rootSize, beginBlock_rootSize, hfn]
          · simp only [resetDictionary_nextFreeCode, resetDictionary_rootSize, beginBlock_rootSize,
              resetDictionary_dictionary, hfn]
            exact dictInv_writeLiterals _ _
        · intro _
          simpa using hpos
    · by_contra hc
      obtain ⟨hrun, hle⟩ := (codeReady_iff _).1 (by simpa using hc)
      have hw := initialCodeSize_toNat hr
      by_cases hn : n = 0#32
      · rw [if_pos hn] at hrun
        have h0 : Status.complete = Status.run := hrun
        cases h0
      · rw [if_neg hn] at hle
        have h0 : (initialCodeSize r).toNat ≤ 0 := hle
        omega
  · have hr' : rootOk r = false := by simpa using hr
    simp only [hr']
    refine ⟨_, rfl, returnStatus_inv ?_, rfl⟩
    refine ⟨⟨hw, by simp, rfl, rfl, by simp, by simp, by simp, by simp, by simp, ?_, by simp, by simp, by simp⟩,
      by simp⟩
    intro i hi; simp at hi

/-- FEED between commands keeps the invariants and leaves less than one code (40_commands.md R102). -/
theorem execFeed_inv {s : State} (b : Byte) (hi : Inv s) (hr : codeReady s = false) :
    ∃ t, execFeed b s = .next t ∧ Inv t ∧ codeReady t = false := by
  unfold execFeed
  by_cases hrun : s.status = .run
  · simp only [hrun, if_true]
    have hn := nbits_le_of_not_ready hi hr hrun
    obtain ⟨n, t, h1, h2, h3, -⟩ := decodeLoop_inv (appendByte_inv b hi hn) (le_refl _)
    refine ⟨returnStatus t, ?_, returnStatus_inv h2, h3⟩
    rw [h1, andThen_next]
  · simp only [hrun, if_false]
    exact ⟨_, rfl, returnStatus_inv hi, hr⟩

/-- EOD keeps the invariants (40_commands.md R103). -/
theorem execEod_inv {s : State} (hi : Inv s) (hr : codeReady s = false) :
    ∃ t, execEod s = .next t ∧ Inv t ∧ codeReady t = false := by
  unfold execEod
  refine ⟨_, rfl, ?_, ?_⟩
  · refine returnStatus_inv ?_
    split
    · next hrun =>
      have hcause : s.cause = Cause.none := by
        by_contra h; have := hi.causeIff.1 h; simp [hrun] at this
      exact ⟨⟨hi.outWf, hi.dictWf, hi.spZero, hi.stackEmpty, by simp [hcause],
        fun _ => hi.faultZero (by simp [hrun]), hi.countLe, by simp, fun _ => hi.room hrun, hi.written, hi.accBits,
        hi.nbitsLe, by simp⟩, by simp⟩
    · exact hi
  · split
    · rfl
    · exact hr

end Sys2Proof.Machine
end

