-- ==== Sys2Proof/Laws/Bits.lean ====
section
/-! SUPPORT. The code classes neither read nor write the accumulator: replacing its contents commutes with every shared
operation and with every class (41_code_stream.md R125 rests on it). -/

namespace Sys2Proof.Machine

/-- `s` with other accumulator contents. -/
def State.withBits (a : BitVec 32) (n : BitVec 5) (s : State) : State := { s with acc := a, nbits := n }

/-- Change the next state of an outcome. -/
def mapNext (f : State → State) : Result → Result
  | .next s => .next (f s)
  | .fault e => .fault e
  | .refused e => .refused e

theorem andThen_mapNext (o : Result) (g h : State → Result) (f : State → State)
    (hg : ∀ s, h (f s) = mapNext f (g s)) : andThen (mapNext f o) h = mapNext f (andThen o g) := by
  cases o <;> simp [mapNext, andThen, hg]

variable (a : BitVec 32) (n : BitVec 5)

theorem putPixel_withBits (v : Byte) (s : State) :
    putPixel v (s.withBits a n) = (putPixel v s).withBits a n := by
  unfold putPixel
  rw [show hasRoom (s.withBits a n) = hasRoom s from rfl]
  split <;> rfl

theorem push_withBits (v : Byte) (s : State) :
    push v (s.withBits a n) = mapNext (State.withBits a n) (push v s) := by
  unfold push
  rw [show (s.withBits a n).sp = s.sp from rfl]
  split <;> rfl

theorem popPixel_withBits (s : State) :
    popPixel (s.withBits a n) = mapNext (State.withBits a n) (popPixel s) := by
  unfold popPixel
  rw [show (s.withBits a n).sp = s.sp from rfl, show (s.withBits a n).stack = s.stack from rfl]
  cases h : Store.read s.stack (s.sp - 1#13).toNat with
  | none => rfl
  | some v =>
    exact congrArg Host.Outcome.next
      (putPixel_withBits a n v { s with stack := Store.erase s.stack (s.sp - 1#13).toNat, sp := s.sp - 1#13 })

theorem walkChain_withBits (fuel : Nat) (k : Code) (s : State) :
    walkChain fuel k (s.withBits a n) = mapNext (State.withBits a n) (walkChain fuel k s) := by
  induction fuel generalizing k s with
  | zero => rfl
  | succ f ih =>
    unfold walkChain
    rw [show readSlot k (s.withBits a n) = readSlot k s from rfl]
    cases readSlot k s with
    | none => rfl
    | some e =>
      simp only [push_withBits]
      apply andThen_mapNext
      intro s1
      cases e.prefixCode with
      | none => rfl
      | some p => exact ih p s1

theorem drainStack_withBits (k : Nat) (s : State) :
    drainStack k (s.withBits a n) = mapNext (State.withBits a n) (drainStack k s) := by
  induction k generalizing s with
  | zero => rfl
  | succ k ih =>
    unfold drainStack
    rw [popPixel_withBits]
    exact andThen_mapNext _ _ _ _ ih

theorem emit_withBits (c : Code) (s : State) :
    emit c (s.withBits a n) = mapNext (State.withBits a n) (emit c s) := by
  unfold emit
  show andThen (walkChain _ c (State.withBits a n { s with sp := 0#13, stack := [] })) _ = _
  rw [walkChain_withBits]
  apply andThen_mapNext
  intro s1
  exact drainStack_withBits a n _ s1

theorem addEntry_withBits (p : Code) (px : Byte) (s : State) :
    addEntry p px (s.withBits a n) = mapNext (State.withBits a n) (addEntry p px s) := by
  unfold addEntry
  rw [show (s.withBits a n).nextFreeCode = s.nextFreeCode from rfl,
    show readSlot p (s.withBits a n) = readSlot p s from rfl]
  split
  · cases readSlot p s with
    | none => rfl
    | some q =>
      apply congrArg Host.Outcome.next
      generalize (⟨some p, px, q.firstPixel⟩ : Slot) = e
      unfold growCodeSize
      rw [show growsNow (defineSlot e (s.withBits a n)) = growsNow (defineSlot e s) from rfl]
      split <;> rfl
  · rfl

theorem acceptCode_withBits (c : Code) (s : State) :
    acceptCode c (s.withBits a n) = (acceptCode c s).withBits a n := by
  unfold acceptCode checkComplete
  rw [show isComplete { s.withBits a n with previousCode := some c } = isComplete { s with previousCode := some c }
    from rfl]
  split <;> rfl

/-- A code class does to a state with other accumulator contents what it does to the state, and keeps those contents. -/
theorem execCode_withBits (x : CodeCtx) (c : Code) (s : State) :
    exec (decodeCode x c) (s.withBits a n) = mapNext (State.withBits a n) (exec (decodeCode x c) s) := by
  unfold decodeCode
  repeat' split
  · rfl
  · rfl
  · rfl
  · rfl
  · simp only [exec, execCodeFirst, emit_withBits]
    apply andThen_mapNext
    intro s1
    exact congrArg Host.Outcome.next (acceptCode_withBits a n c s1)
  · simp only [exec, execCodeKwkwk]
    rw [show (s.withBits a n).previousCode = s.previousCode from rfl]
    cases s.previousCode with
    | none => rfl
    | some p =>
      simp only [show readSlot p (s.withBits a n) = readSlot p s from rfl]
      cases readSlot p s with
      | none => rfl
      | some q =>
        simp only [addEntry_withBits]
        apply andThen_mapNext
        intro s1
        rw [emit_withBits]
        apply andThen_mapNext
        intro s2
        exact congrArg Host.Outcome.next (acceptCode_withBits a n c s2)
  · rfl
  · simp only [exec, execCodeKnown]
    rw [show (s.withBits a n).previousCode = s.previousCode from rfl]
    cases s.previousCode with
    | none => rfl
    | some p =>
      simp only [emit_withBits]
      apply andThen_mapNext
      intro s1
      simp only [show readSlot c (s1.withBits a n) = readSlot c s1 from rfl]
      cases readSlot c s1 with
      | none => rfl
      | some q =>
        simp only [addEntry_withBits]
        apply andThen_mapNext
        intro s2
        exact congrArg Host.Outcome.next (acceptCode_withBits a n c s2)

end Sys2Proof.Machine
end

