-- ==== Sys2Proof/Laws/Encoding.lean ====
section
/-! SUPPORT. The fields of a command word as numbers, and the word as its fields: enough to reason about command encodings
by arithmetic. -/

namespace Sys2Proof

open Sys2Proof.Machine

theorem opField_toNat (w : CommandWord) : (opField w).toNat = w.toNat / 2 ^ 46 % 4 := by
  rw [opField, BitVec.extractLsb'_toNat, Nat.shiftRight_eq_div_pow]

theorem zField_toNat (w : CommandWord) : (zField w).toNat = w.toNat / 2 ^ 40 % 64 := by
  rw [zField, BitVec.extractLsb'_toNat, Nat.shiftRight_eq_div_pow]

theorem rField_toNat (w : CommandWord) : (rField w).toNat = w.toNat / 2 ^ 32 % 256 := by
  rw [rField, BitVec.extractLsb'_toNat, Nat.shiftRight_eq_div_pow]

theorem immField_toNat (w : CommandWord) : (immField w).toNat = w.toNat % 2 ^ 32 := by
  rw [immField, BitVec.extractLsb'_toNat, Nat.shiftRight_zero]

theorem immHighField_toNat (w : CommandWord) : (immHighField w).toNat = w.toNat / 2 ^ 8 % 2 ^ 24 := by
  rw [immHighField, BitVec.extractLsb'_toNat, Nat.shiftRight_eq_div_pow]

theorem byteField_toNat (w : CommandWord) : (byteField w).toNat = w.toNat % 2 ^ 8 := by
  rw [byteField, BitVec.extractLsb'_toNat, Nat.shiftRight_zero]

theorem append_toNat {m n : Nat} (x : BitVec m) (y : BitVec n) : (x ++ y).toNat = x.toNat * 2 ^ n + y.toNat := by
  rw [BitVec.toNat_append, ← Nat.shiftLeft_add_eq_or_of_lt y.isLt, Nat.shiftLeft_eq]

theorem encodeStart_toNat (r : Byte) (n : Count) : (encodeStart r n).toNat = r.toNat * 2 ^ 32 + n.toNat := by
  rw [encodeStart, append_toNat, append_toNat, append_toNat]
  simp

theorem encodeFeed_toNat (b : Byte) : (encodeFeed b).toNat = 2 ^ 46 + b.toNat := by
  rw [encodeFeed, append_toNat, append_toNat, append_toNat, append_toNat]
  simp

theorem encodeEod_toNat : encodeEod.toNat = 2 ^ 47 := by decide

/-- What the decoder answers, by the four cases of the op field (30_encoding.md R71, R76). -/
theorem decodeCommand_cases (w : CommandWord) :
    (opField w = 3#2 ∧ decodeCommand w = .error .reservedOp) ∨
    (opField w ≠ 3#2 ∧ zField w ≠ 0#6 ∧ decodeCommand w = .error .reservedZ) ∨
    (opField w = 0#2 ∧ zField w = 0#6 ∧ decodeCommand w = .ok (.start (rField w) (immField w))) ∨
    (opField w = 1#2 ∧ zField w = 0#6 ∧ rField w = 0#8 ∧ immHighField w = 0#24 ∧
      decodeCommand w = .ok (.feed (byteField w))) ∨
    (opField w = 1#2 ∧ zField w = 0#6 ∧ ¬ (rField w = 0#8 ∧ immHighField w = 0#24) ∧
      decodeCommand w = .error .feedUnusedBits) ∨
    (opField w = 2#2 ∧ zField w = 0#6 ∧ rField w = 0#8 ∧ immField w = 0#32 ∧ decodeCommand w = .ok .eod) ∨
    (opField w = 2#2 ∧ zField w = 0#6 ∧ ¬ (rField w = 0#8 ∧ immField w = 0#32) ∧
      decodeCommand w = .error .eodUnusedBits) := by
  unfold decodeCommand
  generalize hop : opField w = op
  have hall : op = 0#2 ∨ op = 1#2 ∨ op = 2#2 ∨ op = 3#2 := by clear hop; revert op; decide
  by_cases hz : zField w = 0#6
  · rcases hall with rfl | rfl | rfl | rfl
    · simp [hz]
    · by_cases h : rField w = 0#8 ∧ immHighField w = 0#24 <;> simp [hz, h]
    · by_cases h : rField w = 0#8 ∧ immField w = 0#32 <;> simp [hz, h]
    · simp
  · by_cases h3 : op = 3#2 <;> simp [hz, h3]

end Sys2Proof
end

