-- ==== Sys2Proof/Laws/PerInstr.lean ====
section
/-! SUPPORT. Statements made of every instruction as syntax, one lemma per constructor. Family `TableRow`: the encoding of
a well-formed instruction stands in its own row of spec/opcode_table.json. -/

namespace Sys2Proof.Laws.TableRow

open Sys2Proof Sys2Proof.Machine

/-- The `op` field of a command row (30_encoding.md R71); a code row has none. -/
def rowOp : Instr → Option (BitVec 2)
  | .start _ _ => some 0#2
  | .feed _ => some 1#2
  | .eod => some 2#2
  | .codeEoi _ => none
  | .codeBeyond _ => none
  | .codeClear _ => none
  | .codeFirstUndef _ => none
  | .codeFirst _ => none
  | .codeKwkwk _ => none
  | .codeKnownFull _ => none
  | .codeKnown _ => none

/-- A command's word has its row's `op` and a zero `z` field (30_encoding.md R71); a code class's code has `codeSize` bits
(R77). -/
def Statement (i : Instr) : Prop :=
  ∀ x : CodeCtx, i.wellFormed x = true →
    match encode i with
    | .command w => zField w = 0#6 ∧ some (opField w) = rowOp i
    | .code c => rowOp i = none ∧ codeFits x c = true

theorem start (r : Byte) (n : Count) : Statement (.start r n) := by
  intro x _
  have hw := encodeStart_toNat r n
  have hr := r.isLt
  have hn := n.isLt
  refine ⟨BitVec.eq_of_toNat_eq ?_, congrArg some (BitVec.eq_of_toNat_eq ?_)⟩
  · rw [zField_toNat, hw]; simp only [BitVec.toNat_ofNat]; omega
  · rw [opField_toNat, hw]; simp only [BitVec.toNat_ofNat]; omega

theorem feed (b : Byte) : Statement (.feed b) := by
  intro x _
  have hw := encodeFeed_toNat b
  have hb := b.isLt
  refine ⟨BitVec.eq_of_toNat_eq ?_, congrArg some (BitVec.eq_of_toNat_eq ?_)⟩
  · rw [zField_toNat, hw]; simp only [BitVec.toNat_ofNat]; omega
  · rw [opField_toNat, hw]; simp only [BitVec.toNat_ofNat]; omega

theorem eod : Statement .eod := fun _ _ => ⟨by decide, by decide⟩

theorem codeEoi (c : Code) : Statement (.codeEoi c) := by
  intro x h; simp only [Instr.wellFormed, Bool.and_eq_true] at h; exact ⟨rfl, by simp_all⟩

theorem codeBeyond (c : Code) : Statement (.codeBeyond c) := by
  intro x h; simp only [Instr.wellFormed, Bool.and_eq_true] at h; exact ⟨rfl, by simp_all⟩

theorem codeClear (c : Code) : Statement (.codeClear c) := by
  intro x h; simp only [Instr.wellFormed, Bool.and_eq_true] at h; exact ⟨rfl, by simp_all⟩

theorem codeFirstUndef (c : Code) : Statement (.codeFirstUndef c) := by
  intro x h; simp only [Instr.wellFormed, Bool.and_eq_true] at h; exact ⟨rfl, by simp_all⟩

theorem codeFirst (c : Code) : Statement (.codeFirst c) := by
  intro x h; simp only [Instr.wellFormed, Bool.and_eq_true] at h; exact ⟨rfl, by simp_all⟩

theorem codeKwkwk (c : Code) : Statement (.codeKwkwk c) := by
  intro x h; simp only [Instr.wellFormed, Bool.and_eq_true] at h; exact ⟨rfl, by simp_all⟩

theorem codeKnownFull (c : Code) : Statement (.codeKnownFull c) := by
  intro x h; simp only [Instr.wellFormed, Bool.and_eq_true] at h; exact ⟨rfl, by simp_all⟩

theorem codeKnown (c : Code) : Statement (.codeKnown c) := by
  intro x h; simp only [Instr.wellFormed, Bool.and_eq_true] at h; exact ⟨rfl, by simp_all⟩

end Sys2Proof.Laws.TableRow
end

