-- ==== Sys2Proof/Tests/Slice0.lean ====
section
/-! SUPPORT. Tests and witnesses. Expected results are those of spec/: the words of 30_encoding.md, the vectors and programs
of 95_test_vectors.md. A theorem `witness_X` shows a state and operands that meet the hypotheses of `Obligations.X`. -/

namespace Sys2Proof.Tests

open Sys2Proof Sys2Proof.Machine

/-! ## WellFormed: a term refused for each check -/

/-- Registers right after START 2, and after one literal; a code of three bits. -/
def x0 : CodeCtx := ⟨2#8, 3#4, 6#13, none⟩
def x1 : CodeCtx := ⟨2#8, 3#4, 6#13, some 0#12⟩
def xFull : CodeCtx := ⟨2#8, 12#4, 4096#13, some 0#12⟩

/-- Too wide; not EOI. -/
theorem test_wf_refuses_codeEoi :
    (Instr.codeEoi 257).wellFormed ⟨8, 3, 258, none⟩ = false ∧ (Instr.codeEoi 4).wellFormed x0 = false := by decide

/-- Too wide; not beyond; EOI comes first. -/
theorem test_wf_refuses_codeBeyond :
    (Instr.codeBeyond 8).wellFormed x0 = false ∧ (Instr.codeBeyond 6).wellFormed x0 = false ∧
    (Instr.codeBeyond 9).wellFormed ⟨3, 4, 6, none⟩ = false := by decide

/-- Too wide; not Clear; BEYOND comes first. -/
theorem test_wf_refuses_codeClear :
    (Instr.codeClear 256).wellFormed ⟨8, 3, 258, none⟩ = false ∧ (Instr.codeClear 3).wellFormed x0 = false ∧
    (Instr.codeClear 8).wellFormed ⟨3, 4, 6, none⟩ = false := by decide

/-- Too wide; a code came before; not `nextFreeCode`; EOI and CLEAR come first. -/
theorem test_wf_refuses_codeFirstUndef :
    (Instr.codeFirstUndef 9).wellFormed ⟨2, 3, 9, none⟩ = false ∧ (Instr.codeFirstUndef 6).wellFormed x1 = false ∧
    (Instr.codeFirstUndef 0).wellFormed x0 = false ∧ (Instr.codeFirstUndef 5).wellFormed ⟨2, 3, 5, none⟩ = false ∧
    (Instr.codeFirstUndef 4).wellFormed ⟨2, 3, 4, none⟩ = false := by decide

/-- Too wide; a code came before; EOI, BEYOND, CLEAR and FIRST_UNDEF come first. -/
theorem test_wf_refuses_codeFirst :
    (Instr.codeFirst 8).wellFormed ⟨2, 3, 9, none⟩ = false ∧ (Instr.codeFirst 0).wellFormed x1 = false ∧
    (Instr.codeFirst 5).wellFormed x0 = false ∧ (Instr.codeFirst 7).wellFormed x0 = false ∧
    (Instr.codeFirst 4).wellFormed x0 = false ∧ (Instr.codeFirst 6).wellFormed x0 = false := by decide

/-- Too wide; not `nextFreeCode`; EOI, CLEAR and FIRST_UNDEF come first. -/
theorem test_wf_refuses_codeKwkwk :
    (Instr.codeKwkwk 9).wellFormed ⟨2, 3, 9, some 0⟩ = false ∧ (Instr.codeKwkwk 1).wellFormed x1 = false ∧
    (Instr.codeKwkwk 5).wellFormed ⟨2, 3, 5, some 0⟩ = false ∧
    (Instr.codeKwkwk 4).wellFormed ⟨2, 3, 4, some 0⟩ = false ∧ (Instr.codeKwkwk 6).wellFormed x0 = false := by decide

/-- Too wide; not full; EOI, CLEAR and FIRST come first. -/
theorem test_wf_refuses_codeKnownFull :
    (Instr.codeKnownFull 8).wellFormed ⟨2, 3, 4096, some 0⟩ = false ∧ (Instr.codeKnownFull 0).wellFormed x1 = false ∧
    (Instr.codeKnownFull 5).wellFormed xFull = false ∧ (Instr.codeKnownFull 4).wellFormed xFull = false ∧
    (Instr.codeKnownFull 0).wellFormed ⟨2, 12, 4096, none⟩ = false := by decide

/-- Too wide; not below `nextFreeCode`; EOI, CLEAR, FIRST and KNOWN_FULL come first. -/
theorem test_wf_refuses_codeKnown :
    (Instr.codeKnown 8).wellFormed ⟨2, 3, 9, some 0⟩ = false ∧ (Instr.codeKnown 6).wellFormed x1 = false ∧
    (Instr.codeKnown 5).wellFormed x1 = false ∧ (Instr.codeKnown 4).wellFormed x1 = false ∧
    (Instr.codeKnown 0).wellFormed x0 = false ∧ (Instr.codeKnown 0).wellFormed xFull = false := by decide

/-! ## Decoding: words and codes written out from 30_encoding.md R71, R77, R80 -/

/-- `op = 00`, `z = 000000`, `r = 2`, `imm = 4` (R71); the same word in R83. -/
theorem test_decode_start :
    decodeCommand 0b00_000000_00000010_00000000000000000000000000000100#48 = .ok (.start 2 4) ∧
    decodeTableWord 48 0x000200000004 = some (.start 2 4) ∧
    decodeCommand 0x00FFFFFFFFFF#48 = .ok (.start 255 0xFFFFFFFF) := by decide

/-- `op = 01`, `z = 0`, `r = 0`, `imm[31:8] = 0`, `b = 0xA8` (R71); the same word in R83. -/
theorem test_decode_feed :
    decodeCommand 0b01_000000_00000000_00000000000000000000000010101000#48 = .ok (.feed 0xA8) ∧
    decodeTableWord 48 0x4000000000A8 = some (.feed 0xA8) := by decide

/-- `op = 10`, all else 0 (R71); the same word in R83. -/
theorem test_decode_eod :
    decodeCommand 0b10_000000_00000000_00000000000000000000000000000000#48 = .ok .eod ∧
    decodeTableWord 48 0x800000000000 = some .eod := by decide

/-- 95 V40-16 to V40-20: each word is refused, with its bullet of R76. -/
theorem test_decode_reserved :
    decodeCommand 0xC00000000000#48 = .error .reservedOp ∧ decodeCommand 0x010200000004#48 = .error .reservedZ ∧
    decodeCommand 0x400000000144#48 = .error .feedUnusedBits ∧
    decodeCommand 0x800000000001#48 = .error .eodUnusedBits ∧
    decodeCommand 0x400200000044#48 = .error .feedUnusedBits := by decide

/-- A word wider than its encoding spells nothing (R77, R71; log 10). -/
theorem test_decode_too_wide :
    decodeTableWord 16 0x1004 = none ∧ decodeTableWord 8 8 = none ∧ decodeTableWord 56 0x1000200000004 = none := by
  decide

/-- R80 at `rootSize = 2` right after a reset (Clear 4, EOI 5, `nextFreeCode` 6): all eight codes of three bits. -/
theorem test_decode_codes_after_reset :
    [0b000#12, 0b001#12, 0b010#12, 0b011#12, 0b100#12, 0b101#12, 0b110#12, 0b111#12].map (decodeCode x0) =
      [.codeFirst 0, .codeFirst 1, .codeFirst 2, .codeFirst 3, .codeClear 4, .codeEoi 5, .codeFirstUndef 6,
        .codeBeyond 7] := by decide

/-- R80 after one literal: all eight codes of three bits. -/
theorem test_decode_codes_after_literal :
    [0b000#12, 0b001#12, 0b010#12, 0b011#12, 0b100#12, 0b101#12, 0b110#12, 0b111#12].map (decodeCode x1) =
      [.codeKnown 0, .codeKnown 1, .codeKnown 2, .codeKnown 3, .codeClear 4, .codeEoi 5, .codeKwkwk 6,
        .codeBeyond 7] := by decide

/-- R80 on a full dictionary (95 V42-17, V42-18). -/
theorem test_decode_codes_full :
    [0#12, 4#12, 5#12, 4095#12].map (decodeCode xFull) =
      [.codeKnownFull 0, .codeClear 4, .codeEoi 5, .codeKnownFull 4095] := by decide

/-! ## One step -/

/-- A block right after `START r, n`, with bits in the accumulator. -/
def fresh (r : Byte) (n : Count) (acc : BitVec 32) (nbits : BitVec 5) : State :=
  { resetDictionary (beginBlock r n State.reset) with acc := acc, nbits := nbits }

/-- The same block after the literal 0 (95 P1, P2: `FEED 0x44`, `FEED 0x84`). -/
def afterZero (n : Count) (acc : BitVec 32) (nbits : BitVec 5) : State :=
  { fresh 2 n acc nbits with previousCode := some 0, outCount := 1, out := [(0, 0)] }

/-- The columns of the programs of 95: status, codeSize, nextFreeCode, outCount, previousCode, nbits, acc. -/
def columns : Result → Option (Status × Nat × Nat × Nat × Option Nat × Nat × Nat)
  | .next s => some (s.status, s.codeSize.toNat, s.nextFreeCode.toNat, s.outCount.toNat,
      s.previousCode.map (·.toNat), s.nbits.toNat, s.acc.toNat)
  | .fault _ => none
  | .refused _ => none

/-- The stop registers and the result: status, cause, faultCode, result. -/
def stopOf : Result → Option (Status × Cause × Nat × Option Status)
  | .next s => some (s.status, s.cause, s.faultCode.toNat, s.result)
  | .fault _ => none
  | .refused _ => none

/-- The output buffer and one dictionary slot. -/
def wrote (c : Nat) : Result → Option (List Host.Cell × Option Slot)
  | .next s => some (s.out, Store.read s.dictionary c)
  | .fault _ => none
  | .refused _ => none

/-- 95 V40-1, V40-2: `START 2, 10` and `START 8, 10`. -/
theorem test_start :
    columns (exec (.start 2 10) State.reset) = some (.run, 3, 6, 0, none, 0, 0) ∧
    columns (exec (.start 8 0) State.reset) = some (.complete, 9, 258, 0, none, 0, 0) := by
  constructor <;> rfl

/-- 95 V40-3, V40-6: root sizes 1 and 255 are rejected. -/
theorem test_start_rejected :
    stopOf (exec (.start 1 10) State.reset) = some (.corrupt, .badRootSize, 1, some .corrupt) ∧
    stopOf (exec (.start 255 0xFFFFFFFF) State.reset) = some (.corrupt, .badRootSize, 255, some .corrupt) := by
  constructor <;> rfl

/-- 95 P1: `FEED 0x44` after `START 2, 4`, and V40-10: FEED in IDLE. -/
theorem test_feed :
    columns (exec (.feed 0x44) (fresh 2 4 0 0)) = some (.run, 3, 6, 1, some 0, 2, 1) ∧
    exec (.feed 0x44) State.reset = .next { State.reset with result := some .idle } := by
  constructor <;> rfl

/-- 95 V41-6: one byte completes three codes, and P1 completes. -/
theorem test_feed_three_codes :
    columns (exec (.feed 0x10) (afterZero 4 1 2)) = some (.complete, 4, 9, 4, some 1, 0, 0) ∧
    wrote 8 (exec (.feed 0x10) (afterZero 4 1 2)) =
      some ([(0, 0), (1, 1), (2, 0), (3, 1)], some ⟨some 0, 1, 0⟩) := by
  constructor <;> rfl

/-- 95 V40-12, V40-11: EOD in RUN and in IDLE. -/
theorem test_eod :
    stopOf (exec .eod (afterZero 10 1 2)) = some (.truncated, .none, 0, some .truncated) ∧
    stopOf (exec .eod State.reset) = some (.idle, .none, 0, some .idle) := by
  constructor <;> rfl

/-- 95 V42-1: the code `#5/3` as the first code, by a step inside the decode loop. -/
theorem test_codeEoi : columns (step (fresh 2 10 5 8)) = some (.eoi, 3, 6, 0, none, 5, 0) := by rfl

/-- 95 V42-4: `#7/3` after a literal. -/
theorem test_codeBeyond :
    columns (step (afterZero 10 7 10)) = some (.corrupt, 3, 6, 1, some 0, 7, 0) ∧
    stopOf (step (afterZero 10 7 10)) = some (.corrupt, .codeBeyondNext, 7, none) := by constructor <;> rfl

/-- 95 V42-5: the first of two Clears, and R142 after a literal: `previousCode` is none again. -/
theorem test_codeClear :
    columns (step (fresh 2 10 0x24 8)) = some (.run, 3, 6, 0, none, 5, 4) ∧
    columns (exec (.codeClear 4) (afterZero 10 1 2)) = some (.run, 3, 6, 1, none, 2, 1) := by constructor <;> rfl

/-- 95 V42-10: `#6/3` as the first code. -/
theorem test_codeFirstUndef :
    columns (step (fresh 2 10 6 8)) = some (.corrupt, 3, 6, 0, none, 5, 0) ∧
    stopOf (step (fresh 2 10 6 8)) = some (.corrupt, .firstCodeUndefined, 6, none) := by constructor <;> rfl

/-- 95 V42-7, the code `#0/3`: one pixel, no entry. -/
theorem test_codeFirst :
    columns (exec (.codeFirst 0) (fresh 2 10 1 2)) = some (.run, 3, 6, 1, some 0, 2, 1) ∧
    wrote 6 (exec (.codeFirst 3) (fresh 2 10 1 2)) = some ([(0, 3)], none) := by constructor <;> rfl

/-- 95 V42-11: code 6 is added at slot 6 as (0, 0, 0), then two zeros are written. -/
theorem test_codeKwkwk :
    columns (exec (.codeKwkwk 6) (afterZero 6 0 0)) = some (.run, 3, 7, 3, some 6, 0, 0) ∧
    wrote 6 (exec (.codeKwkwk 6) (afterZero 6 0 0)) =
      some ([(0, 0), (1, 0), (2, 0)], some ⟨some 0, 0, 0⟩) := by constructor <;> rfl

/-- 95 V42-14: code 1 writes 1, and slot 6 is (0, 1, 0). -/
theorem test_codeKnown :
    columns (exec (.codeKnown 1) (afterZero 4 0 0)) = some (.run, 3, 7, 2, some 1, 0, 0) ∧
    wrote 6 (exec (.codeKnown 1) (afterZero 4 0 0)) = some ([(0, 0), (1, 1)], some ⟨some 0, 1, 0⟩) := by
  constructor <;> rfl

/-- A word the host sends is refused when it is reserved (95 V40-16), and 93 I14: a block in RUN with nothing to come. -/
theorem test_step_stops :
    step { State.reset with pending := [.command 0xC00000000000] } = .refused (.reserved .reservedOp) ∧
    step (afterZero 4 1 2) = .fault .stuckInRun := by constructor <;> rfl

/-! ## A dictionary of any size -/

/-- The slots a stream of zeros defines after `START 2`: slot `6 + k` is (0, 0, 0) (95 V43-6). -/
def zeros : Nat → List (Nat × Slot)
  | 0 => writeLiterals 4 []
  | k + 1 => Store.write (zeros k) (6 + k) ⟨some 0, 0, 0⟩

/-- A block of root size 2 whose dictionary holds `k` entries, after one pixel. -/
def table (k : Nat) : State :=
  { afterZero 100000 0 0 with
    dictionary := zeros k, nextFreeCode := BitVec.ofNat 13 (6 + k)
    codeSize := BitVec.ofNat 4 (min 12 (Nat.log2 (6 + k) + 1)) }

theorem zeros_read (k c : Nat) :
    Store.read (zeros k) c =
      if 6 ≤ c ∧ c < 6 + k then some ⟨some 0, 0, 0⟩ else if c < 4 then some (literalSlot c) else none := by
  induction k with
  | zero => rw [zeros, writeLiterals_read, if_neg (by omega : ¬ (6 ≤ c ∧ c < 6 + 0))]; rfl
  | succ k ih =>
    rw [zeros, Store.read_write, ih]
    by_cases h : c = 6 + k
    · rw [if_pos h, if_pos (by omega)]
    · rw [if_neg h]
      by_cases h2 : 6 ≤ c ∧ c < 6 + k
      · rw [if_pos h2, if_pos (by omega)]
      · rw [if_neg h2, if_neg (by omega : ¬ (6 ≤ c ∧ c < 6 + (k + 1)))]

theorem zeros_wf (k : Nat) : Store.wf (zeros k) := by
  induction k with
  | zero => exact writeLiterals_wf 4 Store.wf_nil
  | succ k ih => exact Store.write_wf _ _ ih

theorem zeros_dictInv (k n : Nat) (hn : n ≤ 6 + k) : DictInv 2 n (zeros k) := by
  intro c hc hr
  have h4 : c ≠ 4 := fun h => hr.1 (by rw [h]; rfl)
  have h5 : c ≠ 5 := fun h => hr.2 (by rw [h]; rfl)
  by_cases hl : c < 4
  · refine ⟨literalSlot c, ?_, .inl ⟨hl, rfl⟩⟩
    rw [zeros_read, if_neg (by omega), if_pos hl]
  · refine ⟨⟨some 0, 0, 0⟩, ?_, .inr ⟨by show 6 ≤ c; omega, by decide, by decide, 0, literalSlot 0, rfl, ?_, ?_, ?_, rfl⟩⟩
    · rw [zeros_read, if_pos (by omega)]
    · show 0 < c; omega
    · exact ⟨by decide, by decide⟩
    · rw [show (0 : Code).toNat = 0 from rfl, zeros_read, if_neg (by omega), if_pos (by omega)]

/-- A state of a run with host actions waiting. -/
def withPending (p : List HostAction) (s : State) : State := { s with pending := p }

theorem table_nextFreeCode {k : Nat} (hk : k ≤ 4090) : (table k).nextFreeCode.toNat = 6 + k := by
  show (BitVec.ofNat 13 (6 + k)).toNat = _
  rw [BitVec.toNat_ofNat]
  omega

/-- The invariants hold of every such block, up to a full dictionary. -/
theorem table_inv {k : Nat} (hk : k ≤ 4090) : Inv (table k) := by
  have hn := table_nextFreeCode hk
  refine ⟨⟨List.pairwise_singleton _ _, zeros_wf k, rfl, rfl, ⟨fun h => absurd rfl h, nofun⟩, fun _ => rfl, ?_, nofun, ?_,
    ?_, Nat.one_pos, Nat.zero_le _,
    fun _ => ⟨rfl, ?_, ?_, ?_, nofun, ?_, ?_⟩⟩, fun _ => ?_⟩
  · show 1 ≤ 100000; omega
  · rintro (h | h) <;> cases h
  · intro i hi
    obtain rfl : i = 0 := by have : i < 1 := hi; omega
    exact ⟨0, rfl, (by decide : 0 < 4)⟩
  · rw [hn]; show 6 ≤ _; omega
  · rw [hn]; show _ ≤ 4096; omega
  · rw [hn]
    show (BitVec.ofNat 4 (min 12 (Nat.log2 (6 + k) + 1))).toNat = min 12 _
    rw [BitVec.toNat_ofNat]
    exact Nat.mod_eq_of_lt (by omega)
  · intro p hp
    cases hp
    exact ⟨by rw [hn]; show 0 < _; omega, (by decide : 0 ≠ 4), (by decide : 0 ≠ 5)⟩
  · rw [hn]; exact zeros_dictInv k _ (Nat.le_refl _)
  · show 1 < 100000; omega

theorem table_literal (k : Nat) : readSlot 0 (table k) = some ⟨none, 0, 0⟩ := by
  show Store.read (zeros k) 0 = _
  rw [zeros_read, if_neg (by omega), if_pos (by omega)]
  rfl

theorem table_between (k : Nat) : codeReady (table k) = false := by
  have : 0 < (table k).codeSize.toNat := by
    show 0 < (BitVec.ofNat 4 (min 12 (Nat.log2 (6 + k) + 1))).toNat
    rw [BitVec.toNat_ofNat, Nat.mod_eq_of_lt (by omega)]
    omega
  rw [← Bool.not_eq_true, codeReady_iff]
  rintro ⟨_, h⟩
  have h0 : (table k).nbits.toNat = 0 := rfl
  omega

theorem table_readNbits (k : Nat) :
    step (withPending [.readReg .nbits] (table k)) = .next { (table k) with readData := some (.register 0#32) } := by
  unfold step fetch
  rw [show codeReady (withPending [.readReg .nbits] (table k)) = codeReady (table k) from rfl, table_between]
  rfl

/-- A block right after an accepted START holds the invariants. -/
theorem fresh_inv : Inv (fresh 2 10 0 0) := by
  obtain ⟨t, h, hi, _⟩ := execStart_inv (s := State.reset) 2 10 (by decide) (by decide)
  have h2 : execStart 2 10 State.reset = .next (returnStatus (fresh 2 10 0 0)) := rfl
  rw [h2] at h
  cases h
  exact setPorts_inv (s := returnStatus (fresh 2 10 0 0)) [] none none 0 hi

/-- Inside a decode loop: a byte was just appended. -/
def inLoop (b : Byte) : State := appendByte b (fresh 2 10 0 0)

theorem inLoop_inv (b : Byte) : Inv (inLoop b) := appendByte_inv b fresh_inv (Nat.zero_le 11)

theorem reset_inv : Inv State.reset := by
  refine ⟨⟨Store.wf_nil, Store.wf_nil, rfl, rfl, by decide, by decide, by decide, by decide, by decide, ?_, by decide,
    by decide, nofun⟩, nofun⟩
  intro i hi
  exact absurd hi (Nat.not_lt_zero i)

/-! ## Witnesses: encoding -/

theorem witness_CommandOperandsAreTheirFields :
    decodeCommand 0x00FFFFFFFFFF#48 = .ok (.start 255 0xFFFFFFFF) ∧
    decodeCommand 0x4000000000FF#48 = .ok (.feed 0xFF) := by decide

/-- Every constructor is well formed somewhere. -/
theorem witness_DecodeOfEncode :
    (Instr.start 255 0).wellFormed x0 = true ∧ (Instr.feed 255).wellFormed x0 = true ∧ Instr.eod.wellFormed x0 = true ∧
    (Instr.codeEoi 5).wellFormed x0 = true ∧ (Instr.codeBeyond 7).wellFormed x0 = true ∧
    (Instr.codeClear 4).wellFormed x0 = true ∧ (Instr.codeFirstUndef 6).wellFormed x0 = true ∧
    (Instr.codeFirst 3).wellFormed x0 = true ∧ (Instr.codeKwkwk 6).wellFormed x1 = true ∧
    (Instr.codeKnownFull 4095).wellFormed xFull = true ∧ (Instr.codeKnown 3).wellFormed x1 = true := by decide

theorem witness_EncodeOfDecode :
    decode x0 (.command 0x0009FFFFFFFF) = .ok (.start 9 0xFFFFFFFF) ∧ decode x0 (.code 7) = .ok (.codeBeyond 7) := by
  decide

theorem witness_ReservedWordsAreRefused :
    decodeCommand 0xFFFFFFFFFFFF#48 = .error .reservedOp ∧ decodeCommand 0x3F0000000000#48 = .error .reservedZ ∧
    decodeCommand 0x40FF00000000#48 = .error .feedUnusedBits ∧ decodeCommand 0x80FF00000000#48 = .error .eodUnusedBits ∧
    codeReady (withPending [.command 0xC00000000000] State.reset) = false := by decide

theorem witness_EveryCodeHasExactlyOneClass :
    xFull.nextFreeCode.toNat ≤ 4096 ∧ (4095 : Code).toNat < 2 ^ xFull.codeSize.toNat := by decide

/-! ## Witnesses: steps -/

theorem witness_StepRunsTheDecodedCommand :
    codeReady (withPending [.command 0x000200000004] State.reset) = false ∧
    decodeCommand 0x000200000004#48 = .ok (.start 2 4) := by decide

theorem witness_StepRunsTheNextCode : codeReady (fresh 2 10 7 3) = true := by decide

/-- A command row and a code row. -/
theorem witness_PlacedWordRunsNext :
    State.reset.status ≠ .run ∧
    (decodeTableWord 48 0x800000000000 = some .eod ∧ isCodeRow 48 = false) ∧
    (decodeTableWord 8 7 = some (.codeBeyond 7) ∧ isCodeRow 8 = true) := by decide

theorem witness_NoActionWaitsOrIsStuck :
    (codeReady (fresh 2 10 3 2) = false ∧ (fresh 2 10 3 2).pending = [] ∧ (fresh 2 10 3 2).status = .run) ∧
    (codeReady State.reset = false ∧ State.reset.pending = [] ∧ State.reset.status ≠ .run) := by decide

/-! ## Witnesses: commands -/

/-- Accepted at both ends of the range, and rejected on both sides of it. -/
theorem witness_StartBeginsABlock :
    (2 ≤ (2 : Byte).toNat ∧ (2 : Byte).toNat ≤ 8) ∧ (2 ≤ (8 : Byte).toNat ∧ (8 : Byte).toNat ≤ 8) ∧
    ¬ (2 ≤ (1 : Byte).toNat ∧ (1 : Byte).toNat ≤ 8) ∧ ¬ (2 ≤ (9 : Byte).toNat ∧ (9 : Byte).toNat ≤ 8) := by decide

theorem witness_StartAcceptsRootSizesTwoToEight :
    (∃ t, exec (.start 8 1) State.reset = .next t) ∧ (∃ t, exec (.start 9 1) State.reset = .next t) ∧
    ¬ (2 ≤ (9 : Byte).toNat ∧ (9 : Byte).toNat ≤ 8) := ⟨⟨_, rfl⟩, ⟨_, rfl⟩, by decide⟩

theorem witness_FeedRunsItsCodes :
    State.reset.status ≠ .run ∧
    (Inv (table 4090) ∧ (table 4090).status = .run ∧ codeReady (table 4090) = false) :=
  ⟨nofun, table_inv (by omega), rfl, table_between _⟩

/-- 95 P1: `FEED 0x44` runs two codes and stays in RUN, then `FEED 0x10` runs three. -/
theorem witness_PaceOfBytesChangesNothing :
    ∃ t u, Inv (fresh 2 10 0 0) ∧ (fresh 2 10 0 0).status = .run ∧ codeReady (fresh 2 10 0 0) = false ∧
      DecodeRun 2 (appendByte 0x44 (fresh 2 10 0 0)) t ∧ t.status = .run ∧ DecodeRun 3 (appendByte 0x10 t) u :=
  ⟨_, _, fresh_inv, rfl, rfl,
    .next _ _ _ _ rfl rfl (.next _ _ _ _ rfl rfl (.done _ rfl)), rfl,
    .next _ _ _ _ rfl rfl (.next _ _ _ _ rfl rfl (.next _ _ _ _ rfl rfl (.done _ rfl)))⟩

/-- 95 V42-1: `FEED 0x05` reads `#5/3` and stops at EOI. -/
theorem witness_BitsAfterAStopChangeNothing :
    ∃ t, Inv (fresh 2 10 0 0) ∧ (fresh 2 10 0 0).status = .run ∧ codeReady (fresh 2 10 0 0) = false ∧
      DecodeRun 1 (appendByte 0x05 (fresh 2 10 0 0)) t ∧ t.status ≠ .run :=
  ⟨_, fresh_inv, rfl, rfl, .next _ _ _ _ rfl rfl (.done _ rfl), nofun⟩

theorem witness_EodTruncatesARun : (table 0).status = .run ∧ State.reset.status ≠ .run := ⟨rfl, nofun⟩

/-! ## Witnesses: the code stream -/

/-- 95 V41-1 and V41-3. -/
theorem test_append_and_extract :
    (appendByte 0x10 (fresh 2 10 1 2)).acc = 0x41#32 ∧ (appendByte 0x10 (fresh 2 10 1 2)).nbits = 10#5 ∧
    extractedCode { table 4090 with acc := 0x1FFF, nbits := 17 } = 4095#12 ∧
    (consumeCode { table 4090 with acc := 0x1FFF, nbits := 17 }).acc = 1#32 ∧
    (consumeCode { table 4090 with acc := 0x1FFF, nbits := 17 }).nbits = 5#5 := ⟨rfl, rfl, rfl, rfl, rfl⟩

theorem witness_AppendBytePutsTheByteAbove :
    (fresh 2 10 0x7FF 11).acc.toNat < 2 ^ (fresh 2 10 0x7FF 11).nbits.toNat ∧
    (fresh 2 10 0x7FF 11).nbits.toNat ≤ 11 := by decide

theorem witness_ExtractTakesTheOldestBits :
    (table 4090).codeSize.toNat ≤ 12 ∧
    (table 4090).codeSize.toNat ≤ ({ table 4090 with acc := 0xFFF, nbits := 12 } : State).nbits.toNat :=
  ⟨Nat.le_refl 12, Nat.le_refl 12⟩

theorem witness_CodesArePackedLowBitFirst :
    (2 < (fresh 2 10 0x7FF 11).codeSize.toNat ∧ 2 < 12) ∧
    (fresh 2 10 0x7FF 11).acc.toNat < 2 ^ (fresh 2 10 0x7FF 11).nbits.toNat ∧
    (fresh 2 10 0x7FF 11).nbits.toNat ≤ 11 := by decide

/-! ## Witnesses: the code classes -/

theorem witness_ClearResetsTheDictionary :
    (2 ≤ (fresh 2 10 0 0).rootSize.toNat ∧ (fresh 2 10 0 0).rootSize.toNat ≤ 8) ∧
    (2 ≤ (fresh 8 10 0 0).rootSize.toNat ∧ (fresh 8 10 0 0).rootSize.toNat ≤ 8) :=
  ⟨⟨Nat.le_refl 2, Nat.le_add_left 2 6⟩, ⟨Nat.le_add_left 2 6, Nat.le_refl 8⟩⟩

theorem witness_FirstEmitsTheLiteral :
    Inv (fresh 2 10 0 0) ∧ (fresh 2 10 0 0).status = .run ∧
    (Instr.codeFirst 3).wellFormed (fresh 2 10 0 0).ctx = true := ⟨fresh_inv, rfl, rfl⟩

/-- At the first slot and at the last one (95 V42-13). -/
theorem witness_KwkwkDefinesThenEmits :
    (Inv (table 0) ∧ (table 0).status = .run ∧ (Instr.codeKwkwk 6).wellFormed (table 0).ctx = true) ∧
    (Inv (table 4089) ∧ (table 4089).status = .run ∧ (Instr.codeKwkwk 4095).wellFormed (table 4089).ctx = true) :=
  ⟨⟨table_inv (by omega), rfl, rfl⟩, table_inv (by omega), rfl, rfl⟩

/-- A literal at the first slot, and an entry at the last one. -/
theorem witness_KnownEmitsThenDefines :
    (Inv (table 0) ∧ (table 0).status = .run ∧ (Instr.codeKnown 3).wellFormed (table 0).ctx = true) ∧
    (Inv (table 4089) ∧ (table 4089).status = .run ∧ (Instr.codeKnown 4094).wellFormed (table 4089).ctx = true) :=
  ⟨⟨table_inv (by omega), rfl, rfl⟩, table_inv (by omega), rfl, rfl⟩

/-- 95 V43-13: a string of three pixels with room for one. -/
theorem test_codeKwkwk_overshoot :
    columns (exec (.feed 0x5F) (afterZero 4 2 2)) = some (.complete, 4, 8, 4, some 7, 4, 5) := by rfl

/-- Every instruction goes on from some state: the hypothesis of PreviousCodeWriters, for each constructor. -/
theorem witness_PreviousCodeWriters :
    (∃ t, exec (.start 2 10) State.reset = .next t) ∧ (∃ t, exec (.feed 0x44) (fresh 2 10 0 0) = .next t) ∧
    (∃ t, exec .eod (table 0) = .next t) ∧ (∃ t, exec (.codeEoi 5) (table 0) = .next t) ∧
    (∃ t, exec (.codeBeyond 7) (table 0) = .next t) ∧ (∃ t, exec (.codeClear 4) (table 0) = .next t) ∧
    (∃ t, exec (.codeFirstUndef 6) (fresh 2 10 0 0) = .next t) ∧
    (∃ t, exec (.codeFirst 3) (fresh 2 10 0 0) = .next t) ∧ (∃ t, exec (.codeKwkwk 6) (afterZero 9 0 0) = .next t) ∧
    (∃ t, exec (.codeKnownFull 0) (table 4090) = .next t) ∧ (∃ t, exec (.codeKnown 3) (afterZero 9 0 0) = .next t) :=
  ⟨⟨_, rfl⟩, ⟨_, rfl⟩, ⟨_, rfl⟩, ⟨_, rfl⟩, ⟨_, rfl⟩, ⟨_, rfl⟩, ⟨_, rfl⟩, ⟨_, rfl⟩, ⟨_, rfl⟩, ⟨_, rfl⟩, ⟨_, rfl⟩⟩

/-! ## Witnesses: dictionary and emission -/

/-- Room for one pixel, and none. -/
theorem witness_PutPixelStopsAtExpected :
    (afterZero 2 0 0).outCount.toNat < (afterZero 2 0 0).expected.toNat ∧
    (afterZero 1 0 0).expected.toNat ≤ (afterZero 1 0 0).outCount.toNat ∧
    (afterZero 1 0 0).outCount.toNat ≤ (afterZero 1 0 0).expected.toNat := by decide

/-- 95 V43-12's slot 6: the string of code 6 is 0, 0. -/
theorem witness_EmitWritesThePixelString :
    stringOf (table 1) 6 = some [0, 0] ∧ (table 1).outCount.toNat ≤ (table 1).expected.toNat :=
  ⟨rfl, (by decide : 1 ≤ 100000)⟩

/-- The last literal, and the last entry of a full dictionary. -/
theorem witness_LiveCodesHaveShortStrings :
    Inv (table 4090) ∧ (table 4090).status = .run ∧ (table 4090).rootSize = 2 ∧
    ((3 : Code).toNat < (table 4090).nextFreeCode.toNat ∧ (3 : Code).toNat < 2 ^ 2) ∧
    ((4095 : Code).toNat < (table 4090).nextFreeCode.toNat ∧ (4095 : Code).toNat ≠ 2 ^ 2 ∧
      (4095 : Code).toNat ≠ 2 ^ 2 + 1) :=
  ⟨table_inv (by omega), rfl, rfl, ⟨(by decide : 3 < 4096), by decide⟩, (by decide : 4095 < 4096), by decide, by decide⟩

theorem witness_AddEntryDefinesTheNextSlot :
    (table 4089).nextFreeCode.toNat < 4096 ∧ readSlot 0 (table 4089) = some ⟨none, 0, 0⟩ :=
  ⟨(by decide : 4095 < 4096), table_literal 4089⟩

/-- The ends of R79's ranges after a step that stays in RUN: 7 is the last of width 3, 2047 the last of width 11, 2048 the first
of width 12; 4096 is the full dictionary. -/
theorem witness_WidthFollowsNextFreeCode :
    (∃ t, Inv (withPending [.readReg .nbits] (table 1)) ∧ step (withPending [.readReg .nbits] (table 1)) = .next t ∧
      t.status = .run ∧ t.nextFreeCode.toNat = 2 ^ 3 - 1) ∧
    (∃ t, Inv (withPending [.readReg .nbits] (table 2041)) ∧
      step (withPending [.readReg .nbits] (table 2041)) = .next t ∧
      t.status = .run ∧ t.nextFreeCode.toNat = 2 ^ 11 - 1) ∧
    (∃ t, Inv (withPending [.readReg .nbits] (table 2042)) ∧
      step (withPending [.readReg .nbits] (table 2042)) = .next t ∧
      t.status = .run ∧ t.nextFreeCode.toNat = 2048) ∧
    (∃ t, Inv (withPending [.readReg .nbits] (table 4090)) ∧
      step (withPending [.readReg .nbits] (table 4090)) = .next t ∧
      t.status = .run ∧ t.nextFreeCode.toNat = 4096) :=
  ⟨⟨_, setPorts_inv _ _ _ _ (table_inv (by omega)), table_readNbits 1, rfl, rfl⟩,
    ⟨_, setPorts_inv _ _ _ _ (table_inv (by omega)), table_readNbits 2041, rfl, rfl⟩,
    ⟨_, setPorts_inv _ _ _ _ (table_inv (by omega)), table_readNbits 2042, rfl, rfl⟩,
    ⟨_, setPorts_inv _ _ _ _ (table_inv (by omega)), table_readNbits 4090, rfl, rfl⟩⟩

/-- A code class with more codes waiting in the accumulator, a code class between commands, and a command. -/
theorem witness_ReservedSlotsAreNeverWritten :
    (Inv (inLoop 2) ∧ codeReady (inLoop 2) = true ∧ (inLoop 2).status = .run ∧ encode (.codeFirst 3) = .code 3 ∧
      ∃ t, exec (.codeFirst 3) (inLoop 2) = .next t ∧ 2 ≤ t.rootSize.toNat ∧ t.rootSize.toNat ≤ 8) ∧
    (Inv (table 0) ∧ (table 0).status = .run ∧ encode (.codeKnown 3) = .code 3 ∧
      ∃ t, exec (.codeKnown 3) (table 0) = .next t ∧ 2 ≤ t.rootSize.toNat ∧ t.rootSize.toNat ≤ 8) ∧
    (codeReady (table 0) = false ∧ (∃ w, encode (.start 8 1) = .command w) ∧
      ∃ t, exec (.start 8 1) (table 0) = .next t ∧ 2 ≤ t.rootSize.toNat ∧ t.rootSize.toNat ≤ 8) :=
  ⟨⟨inLoop_inv 2, rfl, rfl, rfl, _, rfl, Nat.le_refl 2, Nat.le_add_left 2 6⟩,
    ⟨table_inv (by omega), rfl, rfl, _, rfl, Nat.le_refl 2, Nat.le_add_left 2 6⟩,
    table_between 0, ⟨_, rfl⟩, _, rfl, Nat.le_add_left 2 6, Nat.le_refl 8⟩

/-- Slot 6 is not live in `table 0`: a stale entry there changes nothing. -/
theorem witness_StaleSlotsChangeNoResult :
    ∃ s s' t, Inv s ∧ Inv s' ∧ codeReady s = false ∧ SameLiveSlots s s' ∧ s ≠ s' ∧ step s = .next t := by
  refine ⟨withPending [.command 0x400000000001] (table 0),
    { withPending [.command 0x400000000001] (table 0) with dictionary := zeros 1 }, _,
    setPorts_inv _ _ _ _ (table_inv (by omega)), ?_, table_between 0, ⟨rfl, ?_⟩, ?_, rfl⟩
  · have h : Inv (withPending [.command 0x400000000001] (table 0)) := setPorts_inv _ _ _ _ (table_inv (by omega))
    obtain ⟨⟨ha, hb, hc, hd, he, hf, hg, hh, hi, hj, hk, hl, hm⟩, hroom⟩ := h
    refine ⟨⟨ha, zeros_wf 1, hc, hd, he, hf, hg, hh, hi, hj, hk, hl, fun hr => ?_⟩, hroom⟩
    have hlv := hm hr
    exact ⟨hlv.root, hlv.nextLow, hlv.nextHigh, hlv.width, hlv.prevNone, hlv.prevSome, zeros_dictInv 1 6 (by omega)⟩
  · intro c hc _
    have hc6 : c < 6 := hc
    show Store.read (zeros 0) c = Store.read (zeros 1) c
    rw [zeros_read, zeros_read, if_neg (by omega), if_neg (by omega : ¬ (6 ≤ c ∧ c < 6 + 1))]
  · intro h
    have : zeros 0 = zeros 1 := congrArg State.dictionary h
    exact absurd this (by decide)

/-! ## Witnesses: output, stops, invariants, reads -/

theorem witness_BlockOutcomeHoldsTheOutput :
    Inv State.reset ∧ State.reset.status = .idle ∧
    ∃ t, exec .eod (table 0) = .next t ∧ Inv t ∧ t.status ≠ .idle ∧ t.status ≠ .run ∧ 0 < t.outCount.toNat := by
  refine ⟨reset_inv, rfl, ?_⟩
  obtain ⟨t, h, hi, _⟩ := execEod_inv (table_inv (k := 0) (by omega)) (table_between 0)
  have h2 : execEod (table 0) = .next { table 0 with status := .truncated, result := some .truncated } := rfl
  refine ⟨t, h, hi, ?_⟩
  rw [h2] at h
  cases h
  exact ⟨nofun, nofun, Nat.one_pos⟩

theorem witness_OutputIsWrittenInOrderOnce :
    ∃ t, exec (.codeKwkwk 6) (afterZero 2 0 0) = .next t ∧
      (afterZero 2 0 0).outCount.toNat ≤ (afterZero 2 0 0).expected.toNat := ⟨_, rfl, by decide⟩

theorem witness_CanonicalFormsAreKept :
    (∃ t, exec (.codeKnown 3) (table 0) = .next t) ∧ Memory.wf (table 0).out ∧ Store.wf (table 0).dictionary ∧
    Memory.wf (table 0).stack := ⟨⟨_, rfl⟩, List.pairwise_singleton _ _, zeros_wf 0, Store.wf_nil⟩

/-- A class that adds an entry, in a block between two commands. -/
theorem witness_CodeClassFrames :
    encode (.codeKnown 3) = .code 3 ∧ ∃ t, exec (.codeKnown 3) (table 0) = .next t := ⟨rfl, _, rfl⟩

/-- Each command, from a block in RUN. -/
theorem witness_CommandFrames :
    (∃ t, exec (.start 9 1) (table 0) = .next t) ∧ (∃ t, exec (.feed 1) (table 0) = .next t) ∧
    (∃ t, exec .eod (table 0) = .next t) := ⟨⟨_, rfl⟩, ⟨_, rfl⟩, ⟨_, rfl⟩⟩

/-- A discarded byte, hardware reset and START, each in a terminal status. -/
theorem witness_TerminalStatusIsFrozen :
    (∃ t, step { State.reset with status := .complete, pending := [.command 0x400000000044] } = .next t) ∧
    (∃ t, step { State.reset with status := .complete, pending := [.hardReset] } = .next t) ∧
    (∃ t, step { State.reset with status := .complete, pending := [.command 0x000200000004] } = .next t) :=
  ⟨⟨_, rfl⟩, ⟨_, rfl⟩, ⟨_, rfl⟩⟩

theorem witness_CauseExactlyWhenCorrupt :
    ((State.reset.cause ≠ .none ↔ State.reset.status = .corrupt) ∧ State.reset.faultCode = 0#12) ∧
    ∃ t, step (withPending [.command 0x000200000004] State.reset) = .next t := ⟨by decide, _, rfl⟩

/-- A step on a command from a block in RUN, and a step on one code inside a decode loop (95 P1's `#4/3`). -/
theorem witness_EveryStepKeepsTheInvariants :
    (∃ t, Inv (withPending [.command 0x400000000001] (table 0)) ∧
      step (withPending [.command 0x400000000001] (table 0)) = .next t ∧ t.status = .run) ∧
    (∃ t, Inv (inLoop 0x44) ∧ codeReady (inLoop 0x44) = true ∧ step (inLoop 0x44) = .next t ∧ t.status = .run) :=
  ⟨⟨_, setPorts_inv _ _ _ _ (table_inv (by omega)), rfl, rfl⟩, _, inLoop_inv 0x44, rfl, rfl, rfl⟩

/-- A step on a command from a block in RUN. -/
theorem witness_EveryStepEndsBetweenCommands :
    ∃ s t, Inv s ∧ codeReady s = false ∧ step s = .next t ∧ t.status = .run :=
  ⟨withPending [.command 0x400000000001] (table 0), _, setPorts_inv _ _ _ _ (table_inv (by omega)), table_between 0,
    rfl, rfl⟩

/-- Each of the five ways a step can end. -/
theorem witness_NothingElseStopsTheBlock :
    (Inv State.reset ∧ codeReady State.reset = false ∧ step State.reset = .next State.reset) ∧
    step (withPending [.command 0xC00000000000] State.reset) = .refused (.reserved .reservedOp) ∧
    (Inv (table 0) ∧ codeReady (table 0) = false ∧ step (table 0) = .fault .stuckInRun) ∧
    step (withPending [.readReg .codeSize] State.reset) = .fault .unspecifiedRegister ∧
    step (withPending [.readOut 0] State.reset) = .fault .outputOutOfRange :=
  ⟨⟨reset_inv, rfl, rfl⟩, rfl, ⟨table_inv (by omega), table_between 0, rfl⟩, rfl, rfl⟩

theorem witness_HardwareResetValues :
    codeReady (withPending [.hardReset] (table 0)) = false ∧
    (withPending [.hardReset] (table 0)).pending = .hardReset :: [] := ⟨table_between 0, rfl⟩

/-- After hardware reset, after a rejected START, and in RUN. -/
theorem witness_ReadPortAnswersSpecifiedRegisters :
    step (withPending [.readReg .rootSize] State.reset) = .fault .unspecifiedRegister ∧
    step { State.reset with status := .corrupt, cause := .badRootSize, pending := [.readReg .previousCode] } =
      .fault .unspecifiedRegister ∧
    (codeReady (withPending [.readReg .nbits] (table 0)) = false ∧
      step (withPending [.readReg .nbits] (table 0)) =
        .next { (table 0) with readData := some (.register 0#32) }) := ⟨rfl, rfl, table_between 0, rfl⟩

/-- The last position written, the first and the last of the host's own, and the first outside the buffer. -/
theorem witness_OutputPositionsBelowCountAreReadable :
    Inv (withPending [.readOut 0] (table 0)) ∧ codeReady (withPending [.readOut 0] (table 0)) = false ∧
    (0 : Count).toNat < (table 0).outCount.toNat ∧
    ((table 0).outCount.toNat ≤ (1 : Count).toNat ∧ (99999 : Count).toNat < (table 0).expected.toNat) ∧
    (table 0).expected.toNat ≤ (100000 : Count).toNat :=
  ⟨setPorts_inv _ _ _ _ (table_inv (by omega)), table_between 0, Nat.one_pos, ⟨Nat.le_refl 1, Nat.le_refl 100000⟩,
    Nat.le_refl 100000⟩

/-- 70 R243: a position the block has not written answers the host's contents, also where an earlier block wrote it (here
position 0, after a START). -/
theorem test_read_of_host_contents :
    step { (fresh 2 10 0 0) with out := [(0, 3)], pending := [.readOut 0] } =
      .next { (fresh 2 10 0 0) with
        out := [(0, 3)], readData := some (.pixel (Config.freeOutput 0)), freeTick := 1 } := by rfl

/-- A code that goes on, and one that stops the block. -/
theorem witness_PackerFollowsTheMachine :
    Inv (table 0) ∧ (table 0).status = .run ∧
    (∃ t, exec (decodeCode (table 0).ctx 3) (table 0) = .next t) ∧
      nextCtx (table 0).ctx (decodeCode (table 0).ctx 3) = some ⟨2, 3, 7, some 3⟩ ∧
    (∃ t, exec (decodeCode (table 0).ctx 7) (table 0) = .next t) ∧
      nextCtx (table 0).ctx (decodeCode (table 0).ctx 7) = none :=
  ⟨table_inv (by omega), rfl, ⟨_, rfl⟩, rfl, ⟨_, rfl⟩, rfl⟩

end Sys2Proof.Tests
end

/-! PROOFS, family 10_state.md: the registers, the dictionary and the read port between commands. -/

namespace Sys2Proof.Machine

/-! ## What a step between commands can do -/

/-- One step between two commands: the idle wait, one of the three commands, hardware reset, or one of the two host
reads (20_memory.md R60, 30_encoding.md R75, 70_reset_and_hazards.md R230, R231, R253). -/
inductive HostStep (s t : State) : Prop where
  | wait (hp : s.pending = []) (hidle : s.status ≠ .run) (ht : t = s)
  | start (rest : List HostAction) (w : CommandWord) (r : Byte) (n : Count) (hp : s.pending = .command w :: rest)
      (hd : decodeCommand w = .ok (.start r n)) (ht : execStart r n { s with pending := rest } = .next t)
  | feed (rest : List HostAction) (w : CommandWord) (b : Byte) (hp : s.pending = .command w :: rest)
      (hd : decodeCommand w = .ok (.feed b)) (ht : execFeed b { s with pending := rest } = .next t)
  | eod (rest : List HostAction) (w : CommandWord) (hp : s.pending = .command w :: rest)
      (hd : decodeCommand w = .ok .eod) (ht : execEod { s with pending := rest } = .next t)
  | hardReset (rest : List HostAction) (hp : s.pending = .hardReset :: rest)
      (ht : t = Machine.hardReset { s with pending := rest })
  | readReg (rest : List HostAction) (r : ReadReg) (hp : s.pending = .readReg r :: rest)
      (ht : readPort r { s with pending := rest } = .next t)
  | readOut (rest : List HostAction) (i : Count) (hp : s.pending = .readOut i :: rest)
      (ht : readOutput i { s with pending := rest } = .next t)

/-- A command word spells a command, not a code class (30_encoding.md R70, R75). -/
theorem decodeCommand_ok {w : CommandWord} {i : Instr} (h : decodeCommand w = .ok i) :
    (∃ r n, i = .start r n) ∨ (∃ b, i = .feed b) ∨ i = .eod := by
  rcases decodeCommand_cases w with ⟨-, hd⟩ | ⟨-, -, hd⟩ | ⟨-, -, hd⟩ | ⟨-, -, -, -, hd⟩ | ⟨-, -, -, hd⟩ |
    ⟨-, -, -, -, hd⟩ | ⟨-, -, -, hd⟩ <;> rw [hd] at h <;> cases h
  · exact .inl ⟨_, _, rfl⟩
  · exact .inr (.inl ⟨_, rfl⟩)
  · exact .inr (.inr rfl)

/-- Inside a decode loop a step is one iteration of it (41_code_stream.md R122; log 9). -/
theorem step_of_codeReady {s : State} (hr : codeReady s = true) : step s = decodeOne s := by
  unfold step fetch
  rw [if_pos hr, decodeOne, dispatch_eq_exec, ctx_consumeCode]
  rfl

theorem step_of_noAction {s : State} (hr : codeReady s = false) (hp : s.pending = []) :
    step s = if s.status = .run then .fault .stuckInRun else .next s := by
  simp [step, fetch, hr, hp, noAction]

theorem step_of_command {s : State} {w : CommandWord} {i : Instr} {rest : List HostAction} (hr : codeReady s = false)
    (hp : s.pending = .command w :: rest) (hd : decodeCommand w = .ok i) :
    step s = exec i { s with pending := rest } := by
  simp [step, fetch, hr, hp, hostTurn, hd]

theorem step_of_reserved {s : State} {w : CommandWord} {e : DecodeError} {rest : List HostAction}
    (hr : codeReady s = false) (hp : s.pending = .command w :: rest) (hd : decodeCommand w = .error e) :
    step s = .refused (.reserved e) := by
  simp [step, fetch, hr, hp, hostTurn, hd]

theorem step_of_hardReset {s : State} {rest : List HostAction} (hr : codeReady s = false)
    (hp : s.pending = .hardReset :: rest) : step s = .next (hardReset { s with pending := rest }) := by
  simp [step, fetch, hr, hp, hostTurn]

theorem step_of_readReg {s : State} {r : ReadReg} {rest : List HostAction} (hr : codeReady s = false)
    (hp : s.pending = .readReg r :: rest) : step s = readPort r { s with pending := rest } := by
  simp [step, fetch, hr, hp, hostTurn]

theorem step_of_readOut {s : State} {i : Count} {rest : List HostAction} (hr : codeReady s = false)
    (hp : s.pending = .readOut i :: rest) : step s = readOutput i { s with pending := rest } := by
  simp [step, fetch, hr, hp, hostTurn]

/-- Between commands, the steps that go on are the host's seven moves. -/
theorem step_eq_next_iff_hostStep {s t : State} (hr : codeReady s = false) : step s = .next t ↔ HostStep s t := by
  constructor
  · intro h
    cases hp : s.pending with
    | nil =>
      rw [step_of_noAction hr hp] at h
      split at h
      · cases h
      · next hidle => cases h; exact .wait hp hidle rfl
    | cons a rest =>
      cases a with
      | command w =>
        cases hd : decodeCommand w with
        | error e => rw [step_of_reserved hr hp hd] at h; cases h
        | ok i =>
          rw [step_of_command hr hp hd] at h
          obtain ⟨r, n, rfl⟩ | ⟨b, rfl⟩ | rfl := decodeCommand_ok hd
          · exact .start rest w r n hp hd h
          · exact .feed rest w b hp hd h
          · exact .eod rest w hp hd h
      | hardReset => rw [step_of_hardReset hr hp] at h; cases h; exact .hardReset rest hp rfl
      | readReg r => rw [step_of_readReg hr hp] at h; exact .readReg rest r hp h
      | readOut i => rw [step_of_readOut hr hp] at h; exact .readOut rest i hp h
  · intro h
    cases h with
    | wait hp hidle ht => rw [step_of_noAction hr hp, if_neg hidle, ht]
    | start rest w r n hp hd ht => exact (step_of_command hr hp hd).trans ht
    | feed rest w b hp hd ht => exact (step_of_command hr hp hd).trans ht
    | eod rest w hp hd ht => exact (step_of_command hr hp hd).trans ht
    | hardReset rest hp ht => rw [step_of_hardReset hr hp, ht]
    | readReg rest r hp ht => exact (step_of_readReg hr hp).trans ht
    | readOut rest i hp ht => exact (step_of_readOut hr hp).trans ht

/-! ## The invariants -/

/-- Hardware reset keeps the invariants, whatever the registers held (70_reset_and_hazards.md R230). -/
theorem hardReset_inv {s : State} (hw : Memory.wf s.out) : Inv (hardReset s) :=
  ⟨⟨hw, by simp, rfl, rfl, by simp, by simp, by simp, by simp, by simp, by simp, by simp, by simp, by simp⟩, by simp⟩

/-- A read changes the host's side of the ports only (10_state.md R35). -/
theorem readPort_inv {r : ReadReg} {s t : State} (hi : Inv s) (h : readPort r s = .next t) :
    Inv t ∧ codeReady t = codeReady s := by
  obtain ⟨-, rfl⟩ := readPort_eq_next h
  exact ⟨setPorts_inv _ _ _ _ hi, rfl⟩

/-- The same for a read of the output buffer (70_reset_and_hazards.md R243). -/
theorem readOutput_inv {i : Count} {s t : State} (hi : Inv s) (h : readOutput i s = .next t) :
    Inv t ∧ codeReady t = codeReady s := by
  obtain ⟨v, -, rfl⟩ | ⟨-, -, rfl⟩ := readOutput_eq_next h
  · exact ⟨setPorts_inv _ _ _ _ hi, rfl⟩
  · exact ⟨setPorts_inv _ _ _ _ hi, rfl⟩

/-- What is known of the next state of an operation that goes on holds of the state it answers. -/
theorem next_satisfies {P : State → Prop} {o : Result} {t : State} (hp : ∃ u, o = .next u ∧ P u)
    (h : o = .next t) : P t := by
  obtain ⟨u, hu, hP⟩ := hp
  cases hu.symm.trans h
  exact hP

/-- A host's move keeps the invariants and ends between two commands (10_state.md R30, 41_code_stream.md R122). -/
theorem hostStep_inv {s t : State} (hi : Inv s) (hr : codeReady s = false) (h : HostStep s t) :
    Inv t ∧ codeReady t = false := by
  have hp (rest : List HostAction) : Inv { s with pending := rest } := setPorts_inv _ _ _ _ hi
  cases h with
  | wait _ _ ht => subst ht; exact ⟨hi, hr⟩
  | start rest w r n _ _ ht => exact next_satisfies (execStart_inv r n (hp rest).outWf (hp rest).dictWf) ht
  | feed rest w b _ _ ht => exact next_satisfies (execFeed_inv b (hp rest) hr) ht
  | eod rest w _ _ ht => exact next_satisfies (execEod_inv (hp rest) hr) ht
  | hardReset rest _ ht => subst ht; exact ⟨hardReset_inv hi.outWf, rfl⟩
  | readReg rest r _ ht =>
    obtain ⟨h1, h2⟩ := readPort_inv (hp rest) ht
    exact ⟨h1, h2.trans hr⟩
  | readOut rest i _ ht =>
    obtain ⟨h1, h2⟩ := readOutput_inv (hp rest) ht
    exact ⟨h1, h2.trans hr⟩

/-- Settles O44: a step inside a decode loop is one iteration of it, any other is a host's move. -/
theorem everyStepKeepsTheInvariants : Obligations.EveryStepKeepsTheInvariants := by
  unfold Obligations.EveryStepKeepsTheInvariants
  intro s t hi h
  cases hr : codeReady s with
  | true =>
    obtain ⟨u, hu, hinv, -⟩ := decodeOne_inv hi hr
    exact next_satisfies ⟨u, hu, hinv⟩ ((step_of_codeReady hr).symm.trans h)
  | false => exact (hostStep_inv hi hr ((step_eq_next_iff_hostStep hr).1 h)).1

/-- Settles O45: the decode loop of a FEED ends with less than one code, and no other move adds bits. -/
theorem everyStepEndsBetweenCommands : Obligations.EveryStepEndsBetweenCommands := by
  unfold Obligations.EveryStepEndsBetweenCommands
  intro s t hi hr h
  obtain ⟨-, hready⟩ := hostStep_inv hi hr ((step_eq_next_iff_hostStep hr).1 h)
  refine ⟨hready, fun hrun => ?_⟩
  by_contra hle
  have : codeReady t = true := (codeReady_iff t).2 ⟨hrun, by omega⟩
  simp [hready] at this

/-- Settles O43: State.reset is what hardware reset makes of it. -/
theorem resetHoldsTheInvariants : Obligations.ResetHoldsTheInvariants := by
  unfold Obligations.ResetHoldsTheInvariants
  have hreset : hardReset State.reset = State.reset := rfl
  exact ⟨hreset ▸ hardReset_inv Store.wf_nil, rfl⟩

/-! ## The encodings and the read port -/

/-- Settles O42, by the definitions. -/
theorem statusAndCauseEncodings : Obligations.StatusAndCauseEncodings := by
  unfold Obligations.StatusAndCauseEncodings
  exact ⟨⟨rfl, rfl, rfl, rfl, rfl, rfl⟩, ⟨rfl, rfl, rfl, rfl, rfl⟩⟩

theorem rootRejected_iff (s : State) : rootRejected s = true ↔ s.status = .corrupt ∧ s.cause = .badRootSize := by
  simp [rootRejected]

/-- The registers without a defined answer are the `unspec` cells of 10_state.md R40. -/
theorem isSpecified_eq_false_iff (s : State) (r : ReadReg) :
    isSpecified s r = false ↔
      (r = .rootSize ∧ s.status = .idle) ∨
      ((r = .codeSize ∨ r = .nextFreeCode ∨ r = .previousCode) ∧
        (s.status = .idle ∨ (s.status = .corrupt ∧ s.cause = .badRootSize))) := by
  rw [← rootRejected_iff]
  cases r <;> simp [isSpecified, Decidable.imp_iff_not_or]

/-- Settles O48: the step is `readPort`, and `isSpecified` is the negation of R40's `unspec` cells. -/
theorem readPortAnswersSpecifiedRegisters : Obligations.ReadPortAnswersSpecifiedRegisters := by
  unfold Obligations.ReadPortAnswersSpecifiedRegisters
  intro s r rest hr hp
  dsimp only
  rw [step_of_readReg hr hp, readPort, ← isSpecified_eq_false_iff]
  have hport : isSpecified { s with pending := rest } r = isSpecified s r := by cases r <;> rfl
  rw [hport]
  constructor
  · intro h
    simp [h]
  · intro h
    rw [if_pos (by simpa using h)]
    cases r <;> rfl

/-! ## The strings of live codes -/

/-- The string of a literal is the literal (43_dictionary.md R175). -/
theorem stringOf_literal {s : State} {c : Code} (hl : Live s) (hc : c.toNat < clearOf s.rootSize) :
    stringOf s c = some [c.setWidth 8] := by
  have hlow := hl.nextLow
  rw [firstFreeOf_eq] at hlow
  have hres : notReserved s.rootSize c.toNat := ⟨by omega, by rw [eoiOf_eq]; omega⟩
  obtain ⟨e, he, ⟨-, rfl⟩ | ⟨hhigh, -⟩⟩ := hl.dict c.toNat (by omega) hres
  · refine pixelString_mono (fuel := 1) ?_ (by decide)
    simp [pixelString, he, literalSlot]
  · rw [firstFreeOf_eq] at hhigh
    omega

/-- Settles O30: the dictionary invariant yields each live code's string and bounds its length by `c - Clear`. -/
theorem liveCodesHaveShortStrings : Obligations.LiveCodesHaveShortStrings := by
  unfold Obligations.LiveCodesHaveShortStrings
  intro s c hi hrun hc hclear heoi
  have hl := hi.live hrun
  obtain ⟨str, e, hstr, hslot, hhead, hval, hlen⟩ := stringOf_of_dictInv hl.root hl.dict c hc ⟨hclear, heoi⟩
  have hpos : 1 ≤ str.length := by
    cases str with
    | nil => cases hhead
    | cons v vs => simp
  have hb := clearOf_bounds hl.root
  have hc12 := c.isLt
  rw [show 2 ^ s.rootSize.toNat = clearOf s.rootSize from rfl]
  refine ⟨str, e, hstr, hslot, hhead, hpos, by omega, fun hlit => ?_, by omega, hval⟩
  exact Option.some.inj (hstr.symm.trans (stringOf_literal hl hlit))

/-! ## `cause` and `faultCode` in every state -/

/-- 10_state.md R22 and R23: `cause` is not NONE exactly in CORRUPT, and `faultCode` is 0 in every other status. -/
def CauseMatches (s : State) : Prop :=
  (s.cause ≠ .none ↔ s.status = .corrupt) ∧ (s.status ≠ .corrupt → s.faultCode = 0#12)

theorem causeMatches_iff_of_not_corrupt {s : State} (h : s.status ≠ .corrupt) :
    CauseMatches s ↔ s.cause = .none ∧ s.faultCode = 0#12 := by
  simp [CauseMatches, h]

theorem causeMatches_raiseCorrupt {k : Cause} (v : Code) (s : State) (hk : k ≠ .none) :
    CauseMatches (raiseCorrupt k v s) := by
  simp [CauseMatches, hk]

/-- A state that is not CORRUPT, with the stop registers of another such state, has R22 and R23 from it. -/
theorem CauseMatches.of_not_corrupt {s t : State} (hm : CauseMatches s) (hs : s.status ≠ .corrupt)
    (ht : t.status ≠ .corrupt) (hc : t.cause = s.cause) (hf : t.faultCode = s.faultCode) : CauseMatches t := by
  rw [causeMatches_iff_of_not_corrupt ht, hc, hf]
  exact (causeMatches_iff_of_not_corrupt hs).1 hm

/-- What a dispatch in a running block does to the stop registers: a corrupt stop writes them, and every other outcome
leaves `cause` and `faultCode` as they are (42_code_dispatch.md R140 to R147, 60_exceptions.md R203). -/
theorem dispatch_stopRegisters {c : Code} {s t : State} (hrun : s.status = .run) (h : dispatch c s = .next t) :
    (∃ k, k ≠ Cause.none ∧ t = raiseCorrupt k c s) ∨
    (t.status ≠ .corrupt ∧ t.cause = s.cause ∧ t.faultCode = s.faultCode) := by
  have haccept {u : State} (hu : u.status = .run) : (acceptCode c u).status ≠ .corrupt := by
    obtain ⟨h1, h2⟩ := acceptCode_checked (c := c) hu
    by_cases hfull : (acceptCode c u).outCount = (acceptCode c u).expected
    · simp [h1 hfull]
    · simp [h2 hfull]
  unfold dispatch at h
  split at h
  · cases h; exact .inr ⟨by simp, rfl, rfl⟩
  split at h
  · cases h; exact .inl ⟨_, by simp, rfl⟩
  split at h
  · cases h; exact .inr ⟨by simp [hrun], rfl, rfl⟩
  split at h
  · split at h
    · cases h; exact .inl ⟨_, by simp, rfl⟩
    · obtain ⟨u, hu, rfl⟩ := execCodeFirst_eq_next h
      have hf := (emit_frame hu).1
      exact .inr ⟨haccept (by rw [hf]; exact hrun), by rw [acceptCode_cause, hf], by rw [acceptCode_faultCode, hf]⟩
  split at h
  · obtain ⟨p, q, u, v, -, -, hu, hv, rfl⟩ := execCodeKwkwk_eq_next h
    have hf := (addEntry_frame hu).1
    have hg := (emit_frame hv).1
    exact .inr ⟨haccept (by rw [hg, hf]; exact hrun), by rw [acceptCode_cause, hg, hf],
      by rw [acceptCode_faultCode, hg, hf]⟩
  split at h
  · cases h; exact .inl ⟨_, by simp, rfl⟩
  · obtain ⟨p, q, u, v, -, hu, -, hv, rfl⟩ := execCodeKnown_eq_next h
    have hf := (emit_frame hu).1
    have hg := (addEntry_frame hv).1
    exact .inr ⟨haccept (by rw [hg, hf]; exact hrun), by rw [acceptCode_cause, hg, hf],
      by rw [acceptCode_faultCode, hg, hf]⟩

theorem decodeOne_causeMatches {s t : State} (hrun : s.status = .run) (h : decodeOne s = .next t)
    (hm : CauseMatches s) : CauseMatches t := by
  obtain ⟨k, hk, rfl⟩ | ⟨ht, hc, hf⟩ := dispatch_stopRegisters (s := consumeCode s) hrun h
  · exact causeMatches_raiseCorrupt _ _ hk
  · exact hm.of_not_corrupt (by simp [hrun]) ht hc hf

theorem execStart_causeMatches {r : Byte} {n : Count} {s t : State} (h : execStart r n s = .next t) :
    CauseMatches t := by
  unfold execStart at h
  split at h
  · cases h
    split
    · exact (causeMatches_iff_of_not_corrupt (by simp)).2 ⟨rfl, rfl⟩
    · exact (causeMatches_iff_of_not_corrupt (by simp)).2 ⟨rfl, rfl⟩
  · cases h
    exact causeMatches_raiseCorrupt (r.setWidth 12) (loseDictionary (beginBlock r n s)) (by simp)

theorem execFeed_causeMatches {b : Byte} {s t : State} (h : execFeed b s = .next t) (hm : CauseMatches s) :
    CauseMatches t := by
  unfold execFeed at h
  split at h
  · obtain ⟨u, hu, h⟩ := andThen_eq_next h
    cases h
    have hloop : CauseMatches (appendByte b s) → CauseMatches u :=
      decodeLoop_relates (R := fun s t => CauseMatches s → CauseMatches t) (fun _ => id)
        (fun _ _ _ h1 h2 => h2 ∘ h1) (fun _ _ => decodeOne_causeMatches) hu
    exact hloop hm
  · cases h
    exact hm

theorem execEod_causeMatches {s t : State} (h : execEod s = .next t) (hm : CauseMatches s) : CauseMatches t := by
  cases h
  split
  · next hrun => exact hm.of_not_corrupt (by simp [hrun]) (by simp) rfl rfl
  · exact hm

theorem hostStep_causeMatches {s t : State} (h : HostStep s t) (hm : CauseMatches s) : CauseMatches t := by
  cases h with
  | wait _ _ ht => subst ht; exact hm
  | start rest w r n _ _ ht => exact execStart_causeMatches ht
  | feed rest w b _ _ ht => exact execFeed_causeMatches ht hm
  | eod rest w _ _ ht => exact execEod_causeMatches ht hm
  | hardReset rest _ ht => subst ht; exact (causeMatches_iff_of_not_corrupt (by simp)).2 ⟨rfl, rfl⟩
  | readReg rest r _ ht => obtain ⟨-, rfl⟩ := readPort_eq_next ht; exact hm
  | readOut rest i _ ht => obtain ⟨v, -, rfl⟩ | ⟨-, -, rfl⟩ := readOutput_eq_next ht <;> exact hm

/-- Settles O41: only a corrupt stop and START write `cause` and `faultCode`, apart from hardware reset. -/
theorem causeExactlyWhenCorrupt : Obligations.CauseExactlyWhenCorrupt := by
  unfold Obligations.CauseExactlyWhenCorrupt
  refine ⟨⟨by decide, rfl⟩, fun s t hcause hfault h => ?_⟩
  have hm : CauseMatches s := ⟨hcause, hfault⟩
  cases hr : codeReady s with
  | true =>
    obtain ⟨hrun, -⟩ := (codeReady_iff s).1 hr
    exact decodeOne_causeMatches hrun ((step_of_codeReady hr).symm.trans h) hm
  | false => exact hostStep_causeMatches ((step_eq_next_iff_hostStep hr).1 h) hm

/-! ## Slots no rule reads -/

/-- The dictionaries `d` and `d'` agree on every live code (10_state.md R32, R33). -/
def LiveSlotsAgree (r : Byte) (n : Nat) (d d' : List (Nat × Slot)) : Prop :=
  ∀ c, c < n → notReserved r c → Store.read d c = Store.read d' c

/-- `s` with another dictionary. -/
def State.withDictionary (d : List (Nat × Slot)) (s : State) : State := { s with dictionary := d }

theorem sameLiveSlots_iff {s t : State} :
    SameLiveSlots s t ↔
      ∃ d, LiveSlotsAgree s.rootSize s.nextFreeCode.toNat s.dictionary d ∧ t = s.withDictionary d :=
  ⟨fun ⟨ht, hd⟩ => ⟨t.dictionary, hd, ht⟩, fun ⟨_, hd, ht⟩ => by subst ht; exact ⟨rfl, hd⟩⟩

theorem SameLiveSlots.refl (s : State) : SameLiveSlots s s := ⟨rfl, fun _ _ _ => rfl⟩

/-- An operation that neither looks at the dictionary nor moves what makes a slot live keeps `SameLiveSlots`. -/
theorem SameLiveSlots.map {s s' : State} (h : SameLiveSlots s s') (f : State → State)
    (hcomm : ∀ d, f (s.withDictionary d) = (f s).withDictionary d) (hroot : (f s).rootSize = s.rootSize)
    (hnext : (f s).nextFreeCode = s.nextFreeCode) (hdict : (f s).dictionary = s.dictionary) :
    SameLiveSlots (f s) (f s') := by
  obtain ⟨d, hd, rfl⟩ := sameLiveSlots_iff.1 h
  rw [sameLiveSlots_iff, hroot, hnext, hdict]
  exact ⟨d, hd, hcomm d⟩

theorem SameLiveSlots.ctx_eq {s s' : State} (h : SameLiveSlots s s') : s'.ctx = s.ctx := by
  rw [h.1]; rfl

theorem SameLiveSlots.codeReady_eq {s s' : State} (h : SameLiveSlots s s') : codeReady s' = codeReady s := by
  rw [h.1]; rfl

theorem SameLiveSlots.readSlot_eq {s s' : State} (h : SameLiveSlots s s') {c : Code}
    (hc : c.toNat < s.nextFreeCode.toNat) (hres : notReserved s.rootSize c.toNat) : readSlot c s' = readSlot c s :=
  (h.2 _ hc hres).symm

/-! ### The shared operations with another dictionary -/

theorem putPixel_withDictionary (v : Byte) (d : List (Nat × Slot)) (s : State) :
    putPixel v (s.withDictionary d) = (putPixel v s).withDictionary d := by
  unfold putPixel
  rw [show hasRoom (s.withDictionary d) = hasRoom s from rfl]
  split <;> rfl

theorem putString_withDictionary (str : List Byte) (d : List (Nat × Slot)) (s : State) :
    putString str (s.withDictionary d) = (putString str s).withDictionary d := by
  induction str generalizing s with
  | nil => rfl
  | cons v str ih => rw [putString_cons, putPixel_withDictionary, ih, putString_cons]

theorem growCodeSize_withDictionary (d : List (Nat × Slot)) (s : State) :
    growCodeSize (s.withDictionary d) = (growCodeSize s).withDictionary d := by
  unfold growCodeSize
  rw [show growsNow (s.withDictionary d) = growsNow s from rfl]
  split <;> rfl

theorem acceptCode_withDictionary (c : Code) (d : List (Nat × Slot)) (s : State) :
    acceptCode c (s.withDictionary d) = (acceptCode c s).withDictionary d := by
  unfold acceptCode checkComplete
  rw [show isComplete { s.withDictionary d with previousCode := some c } = isComplete { s with previousCode := some c }
    from rfl]
  split <;> rfl

theorem acceptCode_sameLiveSlots {s s' : State} (c : Code) (h : SameLiveSlots s s') :
    SameLiveSlots (acceptCode c s) (acceptCode c s') :=
  h.map (acceptCode c) (fun d => acceptCode_withDictionary c d s) (by simp) (by simp) (by simp)

/-- A reset defines every live slot anew, whatever the slots held (43_dictionary.md R170). -/
theorem resetDictionary_sameLiveSlots {s : State} (d : List (Nat × Slot)) (hr : rootOk s.rootSize = true) :
    SameLiveSlots (resetDictionary s) (resetDictionary (s.withDictionary d)) := by
  refine sameLiveSlots_iff.2 ⟨writeLiterals (clearOf s.rootSize) d, fun c hc ⟨hclear, heoi⟩ => ?_, rfl⟩
  rw [resetDictionary_nextFreeCode, firstFree_toNat hr, firstFreeOf_eq] at hc
  rw [resetDictionary_rootSize] at hclear heoi
  rw [eoiOf_eq] at heoi
  have hlit : c < clearOf s.rootSize := by omega
  rw [resetDictionary_dictionary, writeLiterals_read, writeLiterals_read, if_pos hlit, if_pos hlit]

/-- The chain of a live code stays among the live slots, so its string is the same (10_state.md R32). -/
theorem pixelString_eq_of_agree {r : Byte} {n : Nat} {d d' : List (Nat × Slot)} (hd : DictInv r n d)
    (hag : LiveSlotsAgree r n d d') (fuel : Nat) (c : Code) (hc : c.toNat < n) (hres : notReserved r c.toNat) :
    pixelString d' fuel c = pixelString d fuel c := by
  induction fuel generalizing c with
  | zero => rfl
  | succ k ih =>
    obtain ⟨e, he, hs⟩ := hd _ hc hres
    have he' : Store.read d' c.toNat = some e := (hag _ hc hres).symm.trans he
    rcases hs with ⟨-, rfl⟩ | ⟨-, -, -, p, q, hp, hlt, hpres, -, -⟩
    · simp [pixelString, he, he', literalSlot]
    · simp [pixelString, he, he', hp, ih p (by omega) hpres]

/-! ### The same step -/

/-- Where `o` goes on, `o'` goes on too, to a state that differs only in slots no rule reads. -/
def Matches (o o' : Result) : Prop := ∀ t, o = .next t → ∃ t', o' = .next t' ∧ SameLiveSlots t t'

theorem Matches.next {t t' : State} (h : SameLiveSlots t t') : Matches (.next t) (.next t') := by
  intro u hu
  cases hu
  exact ⟨t', rfl, h⟩

theorem Matches.andThen {o o' : Result} {f f' : State → Result} (h : Matches o o')
    (hf : ∀ u u', o = .next u → SameLiveSlots u u' → Matches (f u) (f' u')) :
    Matches (andThen o f) (andThen o' f') := by
  intro t ht
  obtain ⟨u, hu, hfu⟩ := andThen_eq_next ht
  obtain ⟨u', hu', hsame⟩ := h u hu
  rw [hu']
  exact hf u u' hu hsame t hfu

theorem emit_matches {s s' : State} {c : Code} (hl : Live s) (h : SameLiveSlots s s')
    (hc : c.toNat < s.nextFreeCode.toNat) (hres : notReserved s.rootSize c.toNat) :
    Matches (emit c s) (emit c s') := by
  obtain ⟨str, -, hstr, -⟩ := stringOf_of_dictInv hl.root hl.dict c hc hres
  have hstr' : stringOf s' c = some str :=
    (pixelString_eq_of_agree hl.dict h.2 _ c hc hres).trans hstr
  rw [emit_eq hstr, emit_eq hstr']
  exact .next (h.map (fun u => { putString str u with sp := 0#13, stack := [] })
    (fun d => by rw [putString_withDictionary]; rfl) (by simp) (by simp) (by simp))

theorem addEntry_matches {s s' : State} {p : Code} (px : Byte) (h : SameLiveSlots s s')
    (hp : p.toNat < s.nextFreeCode.toNat) (hres : notReserved s.rootSize p.toNat) :
    Matches (addEntry p px s) (addEntry p px s') := by
  intro t ht
  obtain ⟨hroom, q, hq, rfl⟩ := addEntry_eq_next ht
  have hq' : readSlot p s' = some q := (h.readSlot_eq hp hres).trans hq
  obtain ⟨d, hd, rfl⟩ := sameLiveSlots_iff.1 h
  refine ⟨growCodeSize (defineSlot ⟨some p, px, q.firstPixel⟩ (s.withDictionary d)), ?_, ?_⟩
  · unfold addEntry
    rw [hq']
    exact if_pos hroom
  · refine sameLiveSlots_iff.2 ⟨Store.write d s.nextFreeCode.toNat ⟨some p, px, q.firstPixel⟩, fun c hc hcres => ?_,
      growCodeSize_withDictionary _ (defineSlot _ s)⟩
    rw [growCodeSize_nextFreeCode, defineSlot_nextFreeCode, nextFree_succ hroom] at hc
    rw [growCodeSize_rootSize, defineSlot_rootSize] at hcres
    rw [growCodeSize_dictionary, defineSlot_dictionary, Store.read_write, Store.read_write]
    split
    · rfl
    · exact hd c (by omega) hcres

theorem execCodeFirst_matches {s s' : State} {c : Code} (hl : Live s) (h : SameLiveSlots s s')
    (hc : c.toNat < s.nextFreeCode.toNat) (hres : notReserved s.rootSize c.toNat) :
    Matches (execCodeFirst c s) (execCodeFirst c s') :=
  (emit_matches hl h hc hres).andThen fun _ _ _ hu => .next (acceptCode_sameLiveSlots c hu)

theorem execCodeKwkwk_matches {s s' : State} {c : Code} (hm : MidCode s) (hrun : s.status = .run)
    (h : SameLiveSlots s s') (hc : c.toNat = s.nextFreeCode.toNat) (hres : notReserved s.rootSize c.toNat) :
    Matches (execCodeKwkwk c s) (execCodeKwkwk c s') := by
  intro t ht
  obtain ⟨p, q, u, v, hp, hq, hu, hv, rfl⟩ := execCodeKwkwk_eq_next ht
  have hl := hm.live hrun
  obtain ⟨hplt, hpres⟩ := hl.prevSome p hp
  have hp' : s'.previousCode = some p := (congrArg CodeCtx.previousCode h.ctx_eq).trans hp
  have hq' : readSlot p s' = some q := (h.readSlot_eq hplt hpres).trans hq
  have hpx : q.firstPixel.toNat < clearOf s.rootSize := by
    obtain ⟨e, he, hs⟩ := hl.dict _ hplt hpres
    cases hq.symm.trans he
    exact slotInv_firstPixel hl.root hs
  obtain ⟨hmu, hnext, hframe⟩ :=
    next_satisfies (addEntry_live hm hrun hp hpx (addEntry_eq_next hu).1) hu
  have hrunu : u.status = .run := by rw [hframe]; exact hrun
  have hrootu : u.rootSize = s.rootSize := by rw [hframe]
  obtain ⟨u', hu', hsame⟩ := addEntry_matches q.firstPixel h hplt hpres u hu
  obtain ⟨v', hv', hsame'⟩ := emit_matches (hmu.live hrunu) hsame (by omega) (by rw [hrootu]; exact hres) v hv
  refine ⟨acceptCode c v', ?_, acceptCode_sameLiveSlots c hsame'⟩
  simp [execCodeKwkwk, hp', hq', hu', hv']

theorem execCodeKnown_matches {s s' : State} {c : Code} (hl : Live s) (h : SameLiveSlots s s')
    (hc : c.toNat < s.nextFreeCode.toNat) (hres : notReserved s.rootSize c.toNat) :
    Matches (execCodeKnown c s) (execCodeKnown c s') := by
  intro t ht
  obtain ⟨p, q, u, v, hp, hu, hq, hv, rfl⟩ := execCodeKnown_eq_next ht
  obtain ⟨hplt, hpres⟩ := hl.prevSome p hp
  have hp' : s'.previousCode = some p := (congrArg CodeCtx.previousCode h.ctx_eq).trans hp
  have hframe := (emit_frame hu).1
  have hrootu : u.rootSize = s.rootSize := by rw [hframe]
  have hnextu : u.nextFreeCode = s.nextFreeCode := by rw [hframe]
  obtain ⟨u', hu', hsame⟩ := emit_matches hl h hc hres u hu
  have hq' : readSlot c u' = some q :=
    (hsame.readSlot_eq (by rw [hnextu]; exact hc) (by rw [hrootu]; exact hres)).trans hq
  obtain ⟨v', hv', hsame'⟩ :=
    addEntry_matches q.firstPixel hsame (by rw [hnextu]; exact hplt) (by rw [hrootu]; exact hpres) v hv
  refine ⟨acceptCode c v', ?_, acceptCode_sameLiveSlots c hsame'⟩
  simp [execCodeKnown, hp', hu', hq', hv']

theorem raiseCorrupt_sameLiveSlots {s s' : State} (k : Cause) (v : Code) (h : SameLiveSlots s s') :
    SameLiveSlots (raiseCorrupt k v s) (raiseCorrupt k v s') :=
  h.map (raiseCorrupt k v) (fun _ => rfl) rfl rfl rfl

/-- The dispatcher classifies by registers only, and every class reads live slots only (10_state.md R33). -/
theorem dispatch_matches {s s' : State} (c : Code) (hi : Inv s) (hrun : s.status = .run) (h : SameLiveSlots s s') :
    Matches (dispatch c s) (dispatch c s') := by
  have hl := hi.live hrun
  unfold dispatch
  rw [h.ctx_eq]
  split
  · exact .next (h.map (fun u => { u with status := .eoi }) (fun _ => rfl) rfl rfl rfl)
  next hEoi =>
  split
  · exact .next (raiseCorrupt_sameLiveSlots _ c h)
  next hBeyond =>
  split
  · obtain ⟨d, -, rfl⟩ := sameLiveSlots_iff.1 h
    exact .next (resetDictionary_sameLiveSlots d hl.root)
  next hClear =>
  have hres : notReserved s.rootSize c.toNat := ⟨not_isClear hClear, not_isEoi hEoi⟩
  have hle : c.toNat ≤ s.nextFreeCode.toNat := not_isBeyond hBeyond
  have hlt (hNext : ¬ isNext s.ctx c = true) : c.toNat < s.nextFreeCode.toNat :=
    Nat.lt_of_le_of_ne hle (not_isNext hNext)
  split
  · split
    · exact .next (raiseCorrupt_sameLiveSlots _ c h)
    · next hNext => exact execCodeFirst_matches hl h (hlt hNext) hres
  split
  · next hNext => exact execCodeKwkwk_matches hi.toMidCode hrun h (by simpa [isNext] using hNext) hres
  next hNext =>
  split
  · exact .next (raiseCorrupt_sameLiveSlots _ c h)
  · exact execCodeKnown_matches hl h (hlt hNext) hres

theorem decodeOne_matches {s s' : State} (hi : Inv s) (hr : codeReady s = true) (h : SameLiveSlots s s') :
    Matches (decodeOne s) (decodeOne s') := by
  have hcode : extractedCode s' = extractedCode s := by rw [h.1]; rfl
  unfold decodeOne
  rw [hcode]
  exact dispatch_matches _ (consumeCode_inv hi hr) ((codeReady_iff s).1 hr).1
    (h.map consumeCode (fun _ => rfl) rfl rfl rfl)

theorem decodeLoop_matches {s s' : State} (fuel : Nat) (hi : Inv s) (h : SameLiveSlots s s') :
    Matches (decodeLoop fuel s) (decodeLoop fuel s') := by
  induction fuel generalizing s s' with
  | zero =>
    unfold decodeLoop
    rw [h.codeReady_eq]
    split
    · intro t ht; cases ht
    · exact .next h
  | succ fuel ih =>
    unfold decodeLoop
    rw [h.codeReady_eq]
    split
    · next hr =>
      refine (decodeOne_matches hi hr h).andThen fun u u' hu hsame => ih ?_ hsame
      obtain ⟨v, hv, hinv, -⟩ := decodeOne_inv hi hr
      exact next_satisfies ⟨v, hv, hinv⟩ hu
    · exact .next h

/-! ### The host's moves -/

theorem returnStatus_sameLiveSlots {s s' : State} (h : SameLiveSlots s s') :
    SameLiveSlots (returnStatus s) (returnStatus s') :=
  h.map returnStatus (fun _ => rfl) rfl rfl rfl

theorem setPending_sameLiveSlots {s s' : State} (rest : List HostAction) (h : SameLiveSlots s s') :
    SameLiveSlots { s with pending := rest } { s' with pending := rest } :=
  h.map (fun u => { u with pending := rest }) (fun _ => rfl) rfl rfl rfl

theorem execStart_matches {s s' : State} (r : Byte) (n : Count) (h : SameLiveSlots s s') :
    Matches (execStart r n s) (execStart r n s') := by
  obtain ⟨d, -, rfl⟩ := sameLiveSlots_iff.1 h
  unfold execStart
  split
  · next hr =>
    have hreset : SameLiveSlots (resetDictionary (beginBlock r n s))
        (resetDictionary (beginBlock r n (s.withDictionary d))) :=
      resetDictionary_sameLiveSlots (s := beginBlock r n s) d hr
    refine .next (returnStatus_sameLiveSlots ?_)
    split
    · exact hreset.map (fun u => { u with status := .complete }) (fun _ => rfl) rfl rfl rfl
    · exact hreset
  · exact .next (SameLiveSlots.refl _)

theorem execFeed_matches {s s' : State} (b : Byte) (hi : Inv s) (hr : codeReady s = false) (h : SameLiveSlots s s') :
    Matches (execFeed b s) (execFeed b s') := by
  have hstatus : s'.status = s.status := by rw [h.1]
  have happend : SameLiveSlots (appendByte b s) (appendByte b s') :=
    h.map (appendByte b) (fun _ => rfl) rfl rfl rfl
  have hnbits : (appendByte b s').nbits = (appendByte b s).nbits := by rw [happend.1]
  unfold execFeed
  rw [hstatus]
  split
  · next hrun =>
    dsimp only
    rw [hnbits]
    exact (decodeLoop_matches _ (appendByte_inv b hi (nbits_le_of_not_ready hi hr hrun)) happend).andThen
      fun _ _ _ hu => .next (returnStatus_sameLiveSlots hu)
  · exact .next (returnStatus_sameLiveSlots h)

theorem execEod_matches {s s' : State} (h : SameLiveSlots s s') : Matches (execEod s) (execEod s') := by
  have hstatus : s'.status = s.status := by rw [h.1]
  unfold execEod
  rw [hstatus]
  refine .next (returnStatus_sameLiveSlots ?_)
  split
  · exact h.map (fun u => { u with status := .truncated }) (fun _ => rfl) rfl rfl rfl
  · exact h

theorem readPort_matches {s s' : State} (r : ReadReg) (h : SameLiveSlots s s') :
    Matches (readPort r s) (readPort r s') := by
  intro t ht
  obtain ⟨hspec, rfl⟩ := readPort_eq_next ht
  have hspec' : isSpecified s' r = true := by rw [← hspec, h.1]; cases r <;> rfl
  refine ⟨{ s' with readData := some (registerData s' r) }, if_pos hspec', ?_⟩
  exact h.map (fun u => { u with readData := some (registerData u r) }) (fun _ => by cases r <;> rfl) rfl rfl rfl

theorem readOutput_matches {s s' : State} (i : Count) (h : SameLiveSlots s s') :
    Matches (readOutput i s) (readOutput i s') := by
  obtain ⟨d, -, rfl⟩ := sameLiveSlots_iff.1 h
  have hwritten : writtenPixel i (s.withDictionary d) = writtenPixel i s := rfl
  have hexpected : (s.withDictionary d).expected = s.expected := rfl
  intro t ht
  unfold readOutput
  rw [hwritten, hexpected]
  obtain ⟨v, hv, rfl⟩ | ⟨hv, hlt, rfl⟩ := readOutput_eq_next ht
  · rw [hv]
    exact ⟨_, rfl, h.map (fun u => { u with readData := some (.pixel v) }) (fun _ => rfl) rfl rfl rfl⟩
  · rw [hv]
    exact ⟨_, if_pos hlt, h.map (fun u => { u with
      readData := some (.pixel (Config.freeOutput u.freeTick)), freeTick := u.freeTick + 1 })
      (fun _ => rfl) rfl rfl rfl⟩

theorem hostStep_sameLiveSlots {s s' t : State} (hi : Inv s) (hr : codeReady s = false) (h : SameLiveSlots s s')
    (hstep : HostStep s t) : ∃ t', HostStep s' t' ∧ SameLiveSlots t t' := by
  have hstatus : s'.status = s.status := by rw [h.1]
  have hpending : s'.pending = s.pending := by rw [h.1]
  have hset (rest : List HostAction) := setPending_sameLiveSlots rest h
  cases hstep with
  | wait hp hidle ht =>
    subst ht
    exact ⟨s', .wait (hpending.trans hp) (hstatus ▸ hidle) rfl, h⟩
  | start rest w r n hp hd ht =>
    obtain ⟨t', ht', hsame⟩ := execStart_matches r n (hset rest) t ht
    exact ⟨t', .start rest w r n (hpending.trans hp) hd ht', hsame⟩
  | feed rest w b hp hd ht =>
    obtain ⟨t', ht', hsame⟩ := execFeed_matches b (setPorts_inv rest _ _ _ hi) hr (hset rest) t ht
    exact ⟨t', .feed rest w b (hpending.trans hp) hd ht', hsame⟩
  | eod rest w hp hd ht =>
    obtain ⟨t', ht', hsame⟩ := execEod_matches (hset rest) t ht
    exact ⟨t', .eod rest w (hpending.trans hp) hd ht', hsame⟩
  | hardReset rest hp ht =>
    have hsame : hardReset { s' with pending := rest } = hardReset { s with pending := rest } := by rw [h.1]; rfl
    exact ⟨t, .hardReset rest (hpending.trans hp) (ht.trans hsame.symm), SameLiveSlots.refl t⟩
  | readReg rest r hp ht =>
    obtain ⟨t', ht', hsame⟩ := readPort_matches r (hset rest) t ht
    exact ⟨t', .readReg rest r (hpending.trans hp) ht', hsame⟩
  | readOut rest i hp ht =>
    obtain ⟨t', ht', hsame⟩ := readOutput_matches i (hset rest) t ht
    exact ⟨t', .readOut rest i (hpending.trans hp) ht', hsame⟩

/-- Settles O34: a simulation, move by move and, inside a FEED, code by code. -/
theorem staleSlotsChangeNoResult : Obligations.StaleSlotsChangeNoResult := by
  unfold Obligations.StaleSlotsChangeNoResult
  intro s s' t hi _ hr h hstep
  obtain ⟨t', ht', hsame⟩ := hostStep_sameLiveSlots hi hr h ((step_eq_next_iff_hostStep hr).1 hstep)
  exact ⟨t', (step_eq_next_iff_hostStep (h.codeReady_eq.trans hr)).2 ht', hsame⟩

end Sys2Proof.Machine

/-! PROOFS, family 20_memory.md: the accumulator's bit order, the output buffer, the canonical forms of storage. -/

namespace Sys2Proof.Machine

/-! ## Bit order -/

/-- The code is the low `codeSize` bits of the accumulator, bit by bit (20_memory.md R55). -/
theorem extractedCode_getLsbD {s : State} {j : Nat} (hj : j < s.codeSize.toNat) (hj12 : j < 12) :
    (extractedCode s).getLsbD j = s.acc.getLsbD j := by
  rw [extractedCode, BitVec.getLsbD_ofNat, Nat.testBit_mod_two_pow, BitVec.testBit_toNat]
  simp [hj, hj12]

theorem consumeCode_getLsbD (s : State) (j : Nat) :
    (consumeCode s).acc.getLsbD j = s.acc.getLsbD (s.codeSize.toNat + j) := by
  rw [consumeCode_acc, BitVec.getLsbD_ushiftRight]

theorem appendByte_getLsbD_below {s : State} (b : Byte) {j : Nat} (hj : j < s.nbits.toNat) :
    (appendByte b s).acc.getLsbD j = s.acc.getLsbD j := by
  rw [appendByte_acc, BitVec.getLsbD_or, BitVec.getLsbD_shiftLeft]
  simp [hj]

/-- Above the occupied bits the accumulator is 0, so the byte arrives unchanged (10_state.md R30, 20_memory.md R55). -/
theorem appendByte_getLsbD_above {s : State} (b : Byte) {i : Nat} (hacc : s.acc.toNat < 2 ^ s.nbits.toNat)
    (hn : s.nbits.toNat ≤ 11) (hi : i < 8) :
    (appendByte b s).acc.getLsbD (s.nbits.toNat + i) = b.getLsbD i := by
  have hzero : s.acc.getLsbD (s.nbits.toNat + i) = false := by
    rw [← BitVec.testBit_toNat]
    exact Nat.testBit_lt_two_pow (Nat.lt_of_lt_of_le hacc (Nat.pow_le_pow_right (by omega) (by omega)))
  have hfits : s.nbits.toNat + i < 32 := by omega
  have hfits' : i < 32 := by omega
  rw [appendByte_acc, BitVec.getLsbD_or, BitVec.getLsbD_shiftLeft, BitVec.getLsbD_setWidth, hzero]
  simp [hfits, hfits']

/-- Settles O20: extraction takes the low bits and shifts the rest down, and the byte is shifted to bit `nbits`. -/
theorem codesArePackedLowBitFirst : Obligations.CodesArePackedLowBitFirst := by
  unfold Obligations.CodesArePackedLowBitFirst
  intro s b
  exact ⟨fun _ => extractedCode_getLsbD, consumeCode_getLsbD s, fun hacc hn =>
    ⟨fun _ => appendByte_getLsbD_below b, fun _ => appendByte_getLsbD_above b hacc hn⟩⟩

/-! ## What an instruction does to storage -/

/-- `t` differs from `s` at most in the stop registers, `previousCode`, the accumulator and the result port. -/
def RegisterFrame (s t : State) : Prop :=
  t = { s with
    status := t.status, cause := t.cause, faultCode := t.faultCode, previousCode := t.previousCode
    acc := t.acc, nbits := t.nbits, result := t.result }

theorem acceptCode_registerFrame (c : Code) (s : State) : RegisterFrame s (acceptCode c s) := by
  unfold RegisterFrame acceptCode checkComplete
  split <;> rfl

theorem appendByte_registerFrame (b : Byte) (s : State) : RegisterFrame s (appendByte b s) := rfl

theorem consumeCode_registerFrame (s : State) : RegisterFrame s (consumeCode s) := rfl

/-- The operations every instruction but START is made of, by what they write of the storage of 20_memory.md R50. -/
inductive StorageOp (s t : State) : Prop where
  | registers (ht : RegisterFrame s t)
  | emit (c : Code) (ht : Machine.emit c s = .next t)
  | addEntry (p : Code) (px : Byte) (ht : Machine.addEntry p px s = .next t)
  | resetDictionary (ht : t = Machine.resetDictionary s)

/-- `t` is `s` after some operations, one after the other. -/
abbrev StorageRun : State → State → Prop := Relation.ReflTransGen StorageOp

/-- A code class stops the block, resets the dictionary, or emits and then accepts its code (42_code_dispatch.md R140 to
R147). -/
theorem execCode_storageRun {i : Instr} {c : Code} {s t : State} (hi : encode i = .code c) (h : exec i s = .next t) :
    StorageRun s t := by
  cases i with
  | start r n => cases hi
  | feed b => cases hi
  | eod => cases hi
  | codeEoi c => cases h; exact .single (.registers rfl)
  | codeBeyond c => cases h; exact .single (.registers rfl)
  | codeClear c => cases h; exact .single (.resetDictionary rfl)
  | codeFirstUndef c => cases h; exact .single (.registers rfl)
  | codeFirst c =>
    obtain ⟨u, hu, rfl⟩ := execCodeFirst_eq_next h
    exact .tail (.single (.emit c hu)) (.registers (acceptCode_registerFrame c u))
  | codeKwkwk c =>
    obtain ⟨p, q, u, v, -, -, hu, hv, rfl⟩ := execCodeKwkwk_eq_next h
    exact .tail (.tail (.single (.addEntry p _ hu)) (.emit c hv)) (.registers (acceptCode_registerFrame c v))
  | codeKnownFull c => cases h; exact .single (.registers rfl)
  | codeKnown c =>
    obtain ⟨p, q, u, v, -, hu, -, hv, rfl⟩ := execCodeKnown_eq_next h
    exact .tail (.tail (.single (.emit c hu)) (.addEntry p _ hv)) (.registers (acceptCode_registerFrame c v))

theorem decodeOne_storageRun {s t : State} (h : decodeOne s = .next t) : StorageRun s t := by
  rw [decodeOne, dispatch_eq_exec] at h
  exact .head (.registers (consumeCode_registerFrame s)) (execCode_storageRun (encode_decodeCode _ _) h)

theorem execFeed_storageRun {b : Byte} {s t : State} (h : execFeed b s = .next t) : StorageRun s t := by
  unfold execFeed at h
  split at h
  · obtain ⟨u, hu, h⟩ := andThen_eq_next h
    cases h
    have hloop : StorageRun (appendByte b s) u :=
      decodeLoop_relates (fun _ => .refl) (fun _ _ _ => .trans) (fun _ _ _ => decodeOne_storageRun) hu
    exact .head (.registers (appendByte_registerFrame b s)) (.tail hloop (.registers rfl))
  · cases h
    exact .single (.registers rfl)

theorem execEod_storageRun {s t : State} (h : execEod s = .next t) : StorageRun s t := by
  cases h
  refine .single (.registers ?_)
  split <;> rfl

theorem exec_storageRun {i : Instr} {s t : State} (hi : ∀ r n, i ≠ .start r n) (h : exec i s = .next t) :
    StorageRun s t := by
  cases i with
  | start r n => exact absurd rfl (hi r n)
  | feed b => exact execFeed_storageRun h
  | eod => exact execEod_storageRun h
  | _ => exact execCode_storageRun rfl h

/-! ## The output buffer -/

/-- From `s` to `t` the block writes output positions from `outCount` on only, and none past `expected` (20_memory.md
R53). -/
def OutputGrows (s t : State) : Prop :=
  s.outCount.toNat ≤ t.outCount.toNat ∧ t.expected = s.expected ∧
    (s.outCount.toNat ≤ s.expected.toNat → t.outCount.toNat ≤ s.expected.toNat) ∧
    ∀ a, (a < s.outCount.toNat ∨ t.outCount.toNat ≤ a) → Store.read t.out a = Store.read s.out a

theorem OutputGrows.of_eq {s t : State} (hout : t.out = s.out) (hcount : t.outCount = s.outCount)
    (hexp : t.expected = s.expected) : OutputGrows s t := by
  unfold OutputGrows
  rw [hout, hcount]
  exact ⟨le_refl _, hexp, id, fun _ _ => rfl⟩

theorem OutputGrows.trans {s t u : State} (h1 : OutputGrows s t) (h2 : OutputGrows t u) : OutputGrows s u := by
  obtain ⟨hcount, hexp, hle, hread⟩ := h1
  obtain ⟨hcount', hexp', hle', hread'⟩ := h2
  rw [hexp] at hexp' hle'
  refine ⟨hcount.trans hcount', hexp', hle' ∘ hle, fun a ha => ?_⟩
  rw [hread' a (by omega), hread a (by omega)]

/-- PutPixel writes position `outCount`, or nothing (43_dictionary.md R176). -/
theorem putPixel_outputGrows (v : Byte) (s : State) : OutputGrows s (putPixel v s) := by
  unfold OutputGrows
  rw [putPixel_outCount, putPixel_out]
  split
  · next hroom =>
    refine ⟨by omega, putPixel_expected s v, fun _ => hroom, fun a ha => ?_⟩
    exact Store.read_write_other _ _ (by omega)
  · exact ⟨le_refl _, putPixel_expected s v, id, fun _ _ => rfl⟩

theorem drainStack_outputGrows {n : Nat} {s t : State} (h : drainStack n s = .next t) : OutputGrows s t := by
  induction n generalizing s with
  | zero => cases h; exact .of_eq rfl rfl rfl
  | succ n ih =>
    obtain ⟨u, hu, h⟩ := andThen_eq_next (f := drainStack n) h
    obtain ⟨v, -, rfl⟩ := popPixel_eq_next hu
    have hpop : OutputGrows s { s with stack := Store.erase s.stack (s.sp - 1#13).toNat, sp := s.sp - 1#13 } :=
      .of_eq rfl rfl rfl
    exact (hpop.trans (putPixel_outputGrows v _)).trans (ih h)

theorem emit_outputGrows {c : Code} {s t : State} (h : emit c s = .next t) : OutputGrows s t := by
  obtain ⟨u, hu, h⟩ := andThen_eq_next h
  obtain ⟨hframe, -⟩ := walkChain_frame hu
  exact .trans (.of_eq (by rw [hframe]) (by rw [hframe]) (by rw [hframe])) (drainStack_outputGrows h)

theorem StorageOp.outputGrows {s t : State} (h : StorageOp s t) : OutputGrows s t := by
  cases h with
  | registers ht => rw [ht]; exact .of_eq rfl rfl rfl
  | emit c ht => exact emit_outputGrows ht
  | addEntry p px ht => rw [(addEntry_frame ht).1]; exact .of_eq rfl rfl rfl
  | resetDictionary ht => subst ht; exact .of_eq rfl rfl rfl

theorem StorageRun.outputGrows {s t : State} (h : StorageRun s t) : OutputGrows s t := by
  induction h with
  | refl => exact .of_eq rfl rfl rfl
  | tail _ hop ih => exact ih.trans hop.outputGrows

/-- START leaves the host's buffer alone (40_commands.md R100, R101). -/
theorem execStart_out {r : Byte} {n : Count} {s t : State} (h : execStart r n s = .next t) : t.out = s.out := by
  unfold execStart at h
  split at h
  · cases h
    split <;> rfl
  · cases h
    rfl

/-- Settles O35: every pixel goes through PutPixel, and START writes none. -/
theorem outputIsWrittenInOrderOnce : Obligations.OutputIsWrittenInOrderOnce := by
  unfold Obligations.OutputIsWrittenInOrderOnce
  intro s t i h
  cases i with
  | start r n => exact execStart_out h
  | _ => exact (exec_storageRun (by simp) h).outputGrows

/-! ## The canonical forms -/

/-- The output buffer, the dictionary and the stack are in canonical form (logs 5 to 7). -/
def CanonicalForms (s : State) : Prop := Memory.wf s.out ∧ Store.wf s.dictionary ∧ Memory.wf s.stack

theorem StorageOp.canonicalForms {s t : State} (h : StorageOp s t) (hs : CanonicalForms s) : CanonicalForms t := by
  obtain ⟨hout, hdict, hstack⟩ := hs
  cases h with
  | registers ht => rw [ht]; exact ⟨hout, hdict, hstack⟩
  | emit c ht =>
    obtain ⟨hframe, hstack', hout'⟩ := emit_frame ht
    exact ⟨hout' hout, by rw [hframe]; exact hdict, hstack'⟩
  | addEntry p px ht =>
    obtain ⟨hframe, hdict'⟩ := addEntry_frame ht
    exact ⟨by rw [hframe]; exact hout, hdict' hdict, by rw [hframe]; exact hstack⟩
  | resetDictionary ht => subst ht; exact ⟨hout, writeLiterals_wf _ hdict, hstack⟩

theorem StorageRun.canonicalForms {s t : State} (h : StorageRun s t) (hs : CanonicalForms s) : CanonicalForms t := by
  induction h with
  | refl => exact hs
  | tail _ hop ih => exact hop.canonicalForms ih

/-- START reaches a state of the invariants, whatever the registers held (40_commands.md R100, R101). -/
theorem execStart_canonicalForms {r : Byte} {n : Count} {s t : State} (h : execStart r n s = .next t)
    (hs : CanonicalForms s) : CanonicalForms t := by
  obtain ⟨hout, hdict, -⟩ := hs
  obtain ⟨hi, -⟩ := next_satisfies (execStart_inv r n hout hdict) h
  exact ⟨hi.outWf, hi.dictWf, by rw [hi.stackEmpty]; exact Store.wf_nil⟩

/-- Settles O36: each storage operation keeps the forms, and START ends in a state of the invariants. -/
theorem canonicalFormsAreKept : Obligations.CanonicalFormsAreKept := by
  unfold Obligations.CanonicalFormsAreKept
  intro s t i h hout hdict hstack
  have hs : CanonicalForms s := ⟨hout, hdict, hstack⟩
  cases i with
  | start r n => exact execStart_canonicalForms h hs
  | _ => exact (exec_storageRun (by simp) h).canonicalForms hs

end Sys2Proof.Machine

/-! PROOFS, family 30_encoding.md: command words, the classes of codes, the width schedule, the packer. -/

namespace Sys2Proof.Machine

/-! ## Command words -/

/-- A word with `op` and `z` zero is the START of its fields (30_encoding.md R71, R72). -/
theorem encodeStart_fields {w : CommandWord} (h : w.toNat / 2 ^ 40 = 0) : encodeStart (rField w) (immField w) = w := by
  apply BitVec.eq_of_toNat_eq
  rw [encodeStart_toNat, rField_toNat, immField_toNat]
  omega

/-- A word that is FEED's but for its low byte is the FEED of that byte (30_encoding.md R71, R73). -/
theorem encodeFeed_byteField {w : CommandWord} (h : w.toNat / 2 ^ 8 = 2 ^ 38) : encodeFeed (byteField w) = w := by
  apply BitVec.eq_of_toNat_eq
  rw [encodeFeed_toNat, byteField_toNat]
  omega

theorem rField_encodeStart (r : Byte) (n : Count) : rField (encodeStart r n) = r := by
  apply BitVec.eq_of_toNat_eq
  rw [rField_toNat, encodeStart_toNat]
  omega

theorem immField_encodeStart (r : Byte) (n : Count) : immField (encodeStart r n) = n := by
  apply BitVec.eq_of_toNat_eq
  rw [immField_toNat, encodeStart_toNat]
  omega

theorem rField_encodeFeed (b : Byte) : rField (encodeFeed b) = 0#8 := by
  apply BitVec.eq_of_toNat_eq
  rw [rField_toNat, encodeFeed_toNat, BitVec.toNat_ofNat]
  omega

theorem immHighField_encodeFeed (b : Byte) : immHighField (encodeFeed b) = 0#24 := by
  apply BitVec.eq_of_toNat_eq
  rw [immHighField_toNat, encodeFeed_toNat, BitVec.toNat_ofNat]
  omega

theorem byteField_encodeFeed (b : Byte) : byteField (encodeFeed b) = b := by
  apply BitVec.eq_of_toNat_eq
  rw [byteField_toNat, encodeFeed_toNat]
  omega

/-- A word that decodes is the word of its command (30_encoding.md R71, R75). -/
theorem encode_of_decodeCommand {w : CommandWord} {i : Instr} (h : decodeCommand w = .ok i) : encode i = .command w := by
  have hop := opField_toNat w
  have hz := zField_toNat w
  have hr := rField_toNat w
  have himm := immField_toNat w
  have hhigh := immHighField_toNat w
  rcases decodeCommand_cases w with ⟨-, hd⟩ | ⟨-, -, hd⟩ | ⟨h0, hz0, hd⟩ | ⟨h1, hz0, hr0, hi0, hd⟩ | ⟨-, -, -, hd⟩ |
    ⟨h2, hz0, hr0, hi0, hd⟩ | ⟨-, -, -, hd⟩ <;> rw [hd] at h <;> cases h
  · simp only [h0, hz0, BitVec.toNat_ofNat] at hop hz
    exact congrArg Encoding.command (encodeStart_fields (by omega))
  · simp only [h1, hz0, hr0, hi0, BitVec.toNat_ofNat] at hop hz hr hhigh
    exact congrArg Encoding.command (encodeFeed_byteField (by omega))
  · simp only [h2, hz0, hr0, hi0, BitVec.toNat_ofNat] at hop hz hr himm
    refine congrArg Encoding.command (BitVec.eq_of_toNat_eq ?_)
    rw [encodeEod_toNat]
    omega

theorem decodeCommand_encodeStart (r : Byte) (n : Count) : decodeCommand (encodeStart r n) = .ok (.start r n) := by
  obtain ⟨hz, hop⟩ := Laws.TableRow.start r n freshCtx rfl
  simp [decodeCommand, Option.some.inj hop, hz, rField_encodeStart, immField_encodeStart]

theorem decodeCommand_encodeFeed (b : Byte) : decodeCommand (encodeFeed b) = .ok (.feed b) := by
  obtain ⟨hz, hop⟩ := Laws.TableRow.feed b freshCtx rfl
  simp [decodeCommand, Option.some.inj hop, hz, rField_encodeFeed, immHighField_encodeFeed, byteField_encodeFeed]

/-- Decoding and encoding of command words are inverse to each other (30_encoding.md R71, R75, R83). -/
theorem decodeCommand_eq_ok_iff {w : CommandWord} {i : Instr} : decodeCommand w = .ok i ↔ encode i = .command w := by
  refine ⟨encode_of_decodeCommand, fun h => ?_⟩
  cases i with
  | start r n => cases h; exact decodeCommand_encodeStart r n
  | feed b => cases h; exact decodeCommand_encodeFeed b
  | eod => cases h; decide
  | _ => cases h

/-- Settles O1: each word is the encoding of its command. -/
theorem spelledWordsDecode : Obligations.SpelledWordsDecode := by
  unfold Obligations.SpelledWordsDecode
  exact ⟨decodeCommand_eq_ok_iff.2 (by decide), decodeCommand_eq_ok_iff.2 (by decide),
    decodeCommand_eq_ok_iff.2 (by decide)⟩

/-- Settles O3: the decoder takes the operands from the fields. -/
theorem commandOperandsAreTheirFields : Obligations.CommandOperandsAreTheirFields := by
  unfold Obligations.CommandOperandsAreTheirFields
  intro w
  constructor
  · intro r n h
    cases decodeCommand_eq_ok_iff.1 h
    exact ⟨(rField_encodeStart r n).symm, (immField_encodeStart r n).symm⟩
  · intro b h
    cases decodeCommand_eq_ok_iff.1 h
    exact (byteField_encodeFeed b).symm

/-! ### Match and mask -/

theorem decodesToStart_iff_div (w : CommandWord) :
    (∃ r n, decodeCommand w = .ok (.start r n)) ↔ w.toNat / 2 ^ 40 = 0 := by
  constructor
  · rintro ⟨r, n, h⟩
    cases decodeCommand_eq_ok_iff.1 h
    rw [encodeStart_toNat]
    omega
  · intro h
    exact ⟨rField w, immField w, decodeCommand_eq_ok_iff.2 (congrArg Encoding.command (encodeStart_fields h))⟩

theorem decodesToFeed_iff_div (w : CommandWord) :
    (∃ b, decodeCommand w = .ok (.feed b)) ↔ w.toNat / 2 ^ 8 = 2 ^ 38 := by
  constructor
  · rintro ⟨b, h⟩
    cases decodeCommand_eq_ok_iff.1 h
    rw [encodeFeed_toNat]
    omega
  · intro h
    exact ⟨byteField w, decodeCommand_eq_ok_iff.2 (congrArg Encoding.command (encodeFeed_byteField h))⟩

theorem decodesToEod_iff (w : CommandWord) : decodeCommand w = .ok .eod ↔ w = 0x800000000000#48 := by
  have heod : encodeEod = 0x800000000000#48 := by decide
  rw [decodeCommand_eq_ok_iff, encode, Encoding.command.injEq, heod, eq_comm]

/-- A mask of all bits from `k` on keeps the quotient by `2^k`. -/
theorem and_highMask_eq_iff (w v : CommandWord) (k : Nat) :
    w &&& BitVec.allOnes 48 <<< k = v ↔ w.toNat / 2 ^ k * 2 ^ k = v.toNat := by
  have hlt : w.toNat / 2 ^ k * 2 ^ k < 2 ^ 48 := (Nat.div_mul_le_self _ _).trans_lt w.isLt
  rw [← BitVec.shiftLeft_ushiftRight, ← BitVec.toNat_inj, BitVec.toNat_shiftLeft, BitVec.toNat_ushiftRight,
    Nat.shiftRight_eq_div_pow, Nat.shiftLeft_eq, Nat.mod_eq_of_lt hlt]

/-- Settles O2: each selection says one thing of the word's number, its quotient by the lowest bit that is tested. -/
theorem commandsSelectedByMatchAndMask : Obligations.CommandsSelectedByMatchAndMask := by
  unfold Obligations.CommandsSelectedByMatchAndMask
  intro w
  have hw := w.isLt
  have hstart : 0xFF0000000000#48 = BitVec.allOnes 48 <<< 40 := by decide
  have hfeed : 0xFFFFFFFFFF00#48 = BitVec.allOnes 48 <<< 8 := by decide
  have hall : 0xFFFFFFFFFFFF#48 = BitVec.allOnes 48 := by decide
  rw [decodesToStart_iff_div, decodesToFeed_iff_div, decodesToEod_iff, hstart, hfeed, hall, and_highMask_eq_iff,
    and_highMask_eq_iff, BitVec.and_allOnes]
  simp only [← BitVec.toNat_inj, BitVec.extractLsb'_toNat, BitVec.toNat_ofNat, Nat.shiftRight_eq_div_pow]
  exact ⟨by omega, by omega, by omega, by omega, trivial, trivial⟩

/-! ### Reserved words -/

/-- Settles O6: the decoder's error branches are R76's bullets, and fetch refuses what does not decode. -/
theorem reservedWordsAreRefused : Obligations.ReservedWordsAreRefused := by
  unfold Obligations.ReservedWordsAreRefused
  intro w
  refine ⟨?_, fun e hd s rest hr hp => step_of_reserved hr hp hd⟩
  change (opField w = 3#2 ∨ zField w ≠ 0#6 ∨
    (opField w = 1#2 ∧ (rField w ≠ 0#8 ∨ immHighField w ≠ 0#24)) ∨
    (opField w = 2#2 ∧ (rField w ≠ 0#8 ∨ immField w ≠ 0#32)) ↔ _)
  rcases decodeCommand_cases w with ⟨hop, hd⟩ | ⟨-, hz, hd⟩ | ⟨hop, hz, hd⟩ | ⟨hop, hz, hr, himm, hd⟩ |
    ⟨hop, hz, hne, hd⟩ | ⟨hop, hz, hr, himm, hd⟩ | ⟨hop, hz, hne, hd⟩
  · simp [hd, hop]
  · simp [hd, hz]
  · simp [hd, hop, hz]
  · simp [hd, hop, hz, hr, himm]
  · simpa [hd, hop, hz, Decidable.imp_iff_not_or] using hne
  · simp [hd, hop, hz, hr, himm]
  · simpa [hd, hop, hz, Decidable.imp_iff_not_or] using hne

/-! ## The classes of codes -/

/-- A well-formed instruction of a code class is the class its code has (30_encoding.md R80): its own row holds and no
earlier one does. -/
theorem decodeCode_of_wellFormed {x : CodeCtx} {i : Instr} {c : Code} (hwf : i.wellFormed x = true)
    (hc : encode i = .code c) : decodeCode x c = i := by
  cases i with
  | start r n => cases hc
  | feed b => cases hc
  | eod => cases hc
  | _ =>
    cases hc
    simp only [Instr.wellFormed, Bool.and_eq_true, Bool.not_eq_true'] at hwf
    simp [decodeCode, hwf]

/-- The decoder's instruction is well formed for a code of `codeSize` bits (30_encoding.md R77, R80). Only KNOWN's row needs
the bound on `nextFreeCode`. -/
theorem decodeCode_wellFormed {x : CodeCtx} {c : Code} (hn : x.nextFreeCode.toNat ≤ 4096) (hfit : codeFits x c = true) :
    (decodeCode x c).wellFormed x = true := by
  unfold decodeCode
  split
  · next hEoi => simp [Instr.wellFormed, hfit, hEoi]
  next hEoi =>
  split
  · next hBeyond => simp [Instr.wellFormed, hfit, hEoi, hBeyond]
  next hBeyond =>
  split
  · next hClear => simp [Instr.wellFormed, hfit, hEoi, hBeyond, hClear]
  next hClear =>
  split
  · next hFirst =>
    split
    · next hNext => simp [Instr.wellFormed, hfit, hEoi, hBeyond, hClear, hFirst, hNext]
    · next hNext => simp [Instr.wellFormed, hfit, hEoi, hBeyond, hClear, hFirst, hNext]
  next hFirst =>
  split
  · next hNext => simp [Instr.wellFormed, hfit, hEoi, hBeyond, hClear, hFirst, hNext]
  next hNext =>
  split
  · next hFull => simp [Instr.wellFormed, hfit, hEoi, hBeyond, hClear, hFirst, hNext, hFull]
  next hFull =>
  have hle := not_isBeyond hBeyond
  have hne := not_isNext hNext
  have hnf : x.nextFreeCode.toNat ≠ 4096 := by simpa [isFull] using hFull
  have hKnown : isKnown x c = true := by
    rw [isKnown, Bool.and_eq_true, decide_eq_true_iff, decide_eq_true_iff]
    exact ⟨by omega, hn.lt_of_ne hnf⟩
  simp [Instr.wellFormed, hfit, hEoi, hBeyond, hClear, hFirst, hNext, hFull, hKnown]

/-- Settles O8: the decoder's class is well formed, spells the code, and any other well-formed spelling is that class. -/
theorem everyCodeHasExactlyOneClass : Obligations.EveryCodeHasExactlyOneClass := by
  unfold Obligations.EveryCodeHasExactlyOneClass
  intro x c hn hfit
  exact ⟨decodeCode_wellFormed hn (decide_eq_true hfit), encode_decodeCode x c,
    fun i hwf hc => (decodeCode_of_wellFormed hwf hc).symm⟩

/-- Settles O7: the tests of the decoder are R80's conditions, and rows 4 and 5 share the test on `previousCode`. -/
theorem codeClassIsTheFirstRowThatHolds : Obligations.CodeClassIsTheFirstRowThatHolds := by
  unfold Obligations.CodeClassIsTheFirstRowThatHolds
  intro x c
  simp only [decodeCode, isEoi, isBeyond, isClear, isFirst, isNext, isFull, beq_iff_eq, decide_eq_true_eq,
    Option.isNone_iff_eq_none, eoiOf, clearOf]
  by_cases hFirst : x.previousCode = none
  · simp only [hFirst, true_and, if_true]
  · simp only [hFirst, false_and, if_false]

/-- Settles O4: by the inverse of the command words, and by the first row that holds of a code. -/
theorem decodeOfEncode : Obligations.DecodeOfEncode := by
  unfold Obligations.DecodeOfEncode
  intro x i hwf
  cases he : encode i with
  | command w => exact decodeCommand_eq_ok_iff.2 he
  | code c => exact congrArg Except.ok (decodeCode_of_wellFormed hwf he)

/-- Settles O5: by the inverse of the command words; a code is the encoding of its class. -/
theorem encodeOfDecode : Obligations.EncodeOfDecode := by
  unfold Obligations.EncodeOfDecode
  intro x e i h
  cases e with
  | command w => exact decodeCommand_eq_ok_iff.1 h
  | code c =>
    cases h
    exact encode_decodeCode x c

/-! ## A placed word -/

theorem codeReady_of_not_run {s : State} (h : s.status ≠ .run) : codeReady s = false := by
  simp [codeReady, h]

theorem step_placeCommand {s : State} {w : CommandWord} {i : Instr} (hr : codeReady s = false)
    (hd : decodeCommand w = .ok i) : step (placeCommand w s) = exec i s := by
  have hplace : placeCommand w s = { s with pending := .command w :: s.pending } := by simp [placeCommand, hr]
  rw [hplace]
  exact step_of_command hr rfl hd

/-- Outside RUN a placed code finds the block that START 2 begins, with the code alone in the accumulator (log 10). -/
theorem placeCode_of_not_run {s : State} {c : Code} (h : s.status ≠ .run) (hc : c.toNat < 2 ^ 3) :
    placeCode c s =
      { resetDictionary (beginBlock freshCtx.rootSize 0xFFFFFFFF#32 s) with
        acc := BitVec.ofNat 32 c.toNat, nbits := 3#5 } := by
  have hacc : c.toNat % 2 ^ (initialCodeSize freshCtx.rootSize).toNat = c.toNat := Nat.mod_eq_of_lt hc
  simp only [placeCode, if_neg h, resetDictionary_codeSize, beginBlock_rootSize, hacc]
  rfl

theorem step_placeCode {s : State} {c : Code} (h : s.status ≠ .run) (hc : c.toNat < 2 ^ 3) :
    step (placeCode c s) = exec (decodeCode freshCtx c) (consumeCode (placeCode c s)) := by
  have hplace := placeCode_of_not_run h hc
  have hready : codeReady (placeCode c s) = true := by rw [hplace]; rfl
  have hctx : (placeCode c s).ctx = freshCtx := by rw [hplace]; rfl
  have hcode : extractedCode (placeCode c s) = c := by
    rw [hplace]
    apply BitVec.eq_of_toNat_eq
    show c.toNat % 2 ^ 32 % 2 ^ 3 % 2 ^ 12 = c.toNat
    omega
  rw [step_of_codeReady hready, decodeOne, dispatch_eq_exec, ctx_consumeCode, hctx, hcode]

/-- The placed code is all the accumulator holds. -/
theorem consumeCode_placeCode_bits {s : State} {c : Code} (h : s.status ≠ .run) (hc : c.toNat < 2 ^ 3) :
    (consumeCode (placeCode c s)).acc = 0#32 ∧ (consumeCode (placeCode c s)).nbits = 0#5 := by
  have hplace := placeCode_of_not_run h hc
  constructor
  · apply BitVec.eq_of_toNat_eq
    rw [consumeCode_acc_toNat, hplace]
    show c.toNat % 2 ^ 32 / 2 ^ 3 = 0
    omega
  · rw [consumeCode_nbits, hplace]
    show 3#5 - (initialCodeSize freshCtx.rootSize).setWidth 5 = 0#5
    decide

/-- The table's width check and the decoder's answer (log 10). -/
theorem decodeTableWord_eq_some {nbits w : Nat} {i : Instr} (h : decodeTableWord nbits w = some i) :
    (isCodeRow nbits = true ∧ w < 2 ^ 3 ∧ i = decodeCode freshCtx (BitVec.ofNat 12 w)) ∨
    (isCodeRow nbits = false ∧ decodeCommand (BitVec.ofNat 48 w) = .ok i) := by
  unfold decodeTableWord at h
  split at h
  · next hrow =>
    split at h
    · next hlt => cases h; exact .inl ⟨hrow, hlt, rfl⟩
    · cases h
  · next hrow =>
    split at h
    · cases h
    · split at h
      · next hd => cases h; exact .inr ⟨by simpa using hrow, hd⟩
      · cases h

/-- Settles O11: a placed command is the host's next action; a placed code is all the accumulator holds. -/
theorem placedWordRunsNext : Obligations.PlacedWordRunsNext := by
  unfold Obligations.PlacedWordRunsNext
  intro s nbits w i hs h
  obtain ⟨hrow, hlt, rfl⟩ | ⟨hrow, hd⟩ := decodeTableWord_eq_some h
  · refine ⟨by simp [hrow], fun _ => ⟨consumeCode (placeCode (BitVec.ofNat 12 w) s), ?_⟩⟩
    have hc : (BitVec.ofNat 12 w).toNat < 2 ^ 3 := by rw [BitVec.toNat_ofNat]; omega
    rw [State.withFetchWord, if_pos hrow]
    obtain ⟨hacc, hnbits⟩ := consumeCode_placeCode_bits hs hc
    refine ⟨step_placeCode hs hc, ?_, ?_, hacc, hnbits, ?_⟩ <;> rw [placeCode_of_not_run hs hc]
    · rfl
    · rfl
    · exact ⟨rfl, rfl, rfl, rfl⟩
  · refine ⟨fun _ => ?_, by simp [hrow]⟩
    rw [State.withFetchWord, if_neg (by simp [hrow])]
    exact step_placeCommand (codeReady_of_not_run hs) hd

/-! ## The width schedule -/

/-- Settles O32: the next state holds the invariants, and R79's ranges are those of the binary logarithm. -/
theorem widthFollowsNextFreeCode : Obligations.WidthFollowsNextFreeCode := by
  unfold Obligations.WidthFollowsNextFreeCode
  intro s t hi h hrun
  have hl := (everyStepKeepsTheInvariants s t hi h).live hrun
  have hwidth : t.codeSize.toNat = min 12 (Nat.log2 t.nextFreeCode.toNat + 1) := hl.width
  refine ⟨hwidth, fun k hk hk11 hlow hhigh => ?_, fun h2048 => ?_⟩
  · have hpow := Nat.two_pow_pos k
    have hlog : Nat.log2 t.nextFreeCode.toNat = k - 1 := by
      rw [Nat.log2_eq_iff (by have := Nat.two_pow_pos (k - 1); omega), Nat.sub_add_cancel (by omega)]
      exact ⟨hlow, by omega⟩
    omega
  · have hlog : 11 ≤ Nat.log2 t.nextFreeCode.toNat := (Nat.le_log2 (by omega)).2 h2048
    omega

/-! ## The packer -/

/-- GrowCodeSize after the increment is the packer's step (43_dictionary.md R172, R173). -/
theorem ctx_addEntry {p : Code} {px : Byte} {s t : State} (h : addEntry p px s = .next t) : t.ctx = grownCtx s.ctx := by
  obtain ⟨-, q, -, rfl⟩ := addEntry_eq_next h
  have hgrow : growsNow (defineSlot ⟨some p, px, q.firstPixel⟩ s) = true ↔
      (s.nextFreeCode + 1#13).toNat = 2 ^ s.codeSize.toNat ∧ s.codeSize.toNat < Config.maxCodeSize := by
    rw [growsNow, Bool.and_eq_true, beq_iff_eq, decide_eq_true_iff]
    rfl
  unfold growCodeSize grownCtx
  by_cases hcond : (s.nextFreeCode + 1#13).toNat = 2 ^ s.codeSize.toNat ∧ s.codeSize.toNat < Config.maxCodeSize
  · rw [if_pos (hgrow.2 hcond)]
    exact (if_pos hcond).symm
  · rw [if_neg (mt hgrow.1 hcond)]
    exact (if_neg hcond).symm

theorem ctx_emit {c : Code} {s t : State} (h : emit c s = .next t) : t.ctx = s.ctx := by
  rw [(emit_frame h).1]
  rfl

theorem ctx_acceptCode (c : Code) (s : State) : (acceptCode c s).ctx = { s.ctx with previousCode := some c } := by
  simp [State.ctx]

/-- Where the packer goes on, a code class leaves the packer's registers (30_encoding.md R85). In every state. -/
theorem ctx_of_nextCtx_some {i : Instr} {s t : State} {y : CodeCtx} (h : exec i s = .next t)
    (hy : nextCtx s.ctx i = some y) : t.ctx = y := by
  cases i with
  | codeClear c =>
    cases h
    cases hy
    rfl
  | codeFirst c =>
    obtain ⟨u, hu, rfl⟩ := execCodeFirst_eq_next h
    cases hy
    rw [ctx_acceptCode, ctx_emit hu]
  | codeKwkwk c =>
    obtain ⟨p, q, u, v, -, -, hu, hv, rfl⟩ := execCodeKwkwk_eq_next h
    cases hy
    rw [ctx_acceptCode, ctx_emit hv, ctx_addEntry hu]
  | codeKnown c =>
    obtain ⟨p, q, u, v, -, hu, -, hv, rfl⟩ := execCodeKnown_eq_next h
    cases hy
    rw [ctx_acceptCode, ctx_addEntry hv, ctx_emit hu]
  | _ => cases hy

/-- Where the packer ends, a code class stops the block (42_code_dispatch.md R140, R141, R144, R147). In every state. -/
theorem stops_of_nextCtx_none {i : Instr} {c : Code} {s t : State} (hc : encode i = .code c) (h : exec i s = .next t)
    (hy : nextCtx s.ctx i = none) : t.status = .eoi ∨ t.status = .corrupt := by
  cases i with
  | codeEoi c => cases h; exact .inl rfl
  | codeBeyond c => cases h; exact .inr rfl
  | codeFirstUndef c => cases h; exact .inr rfl
  | codeKnownFull c => cases h; exact .inr rfl
  | start r n => cases hc
  | feed b => cases hc
  | eod => cases hc
  | _ => cases hy

/-- Settles O52: one case per code class, in every state. -/
theorem packerFollowsTheMachine : Obligations.PackerFollowsTheMachine := by
  unfold Obligations.PackerFollowsTheMachine
  intro s t c _ _ h
  exact ⟨fun y hy => ctx_of_nextCtx_some h hy, stops_of_nextCtx_none (encode_decodeCode _ _) h⟩

/-! ## The assembler -/

/-- Settles O50, by running the packer. -/
theorem workedExampleIsPacked : Obligations.WorkedExampleIsPacked := by
  unfold Obligations.WorkedExampleIsPacked
  exact ⟨by decide, by decide, by decide⟩

/-- Settles O51, by running the assembler. -/
theorem spelledLinesAssemble : Obligations.SpelledLinesAssemble := by
  unfold Obligations.SpelledLinesAssemble
  exact ⟨by decide, by decide, by decide⟩

end Sys2Proof.Machine

/-! PROOFS, family 40_commands.md: START, FEED and EOD, their frames, and the host's reads of the output. -/

namespace Sys2Proof.Machine

/-! ## START -/

/-- START with a root size in `[2, 8]` begins a block with a reset dictionary, which an expected count of 0 completes
(40_commands.md R100). -/
theorem execStart_of_rootOk {r : Byte} (hr : rootOk r = true) (n : Count) (s : State) :
    execStart r n s = .next (returnStatus { resetDictionary (beginBlock r n s) with
      status := if n = 0#32 then .complete else .run }) := by
  unfold execStart
  rw [if_pos hr]
  split <;> rfl

/-- START with any other root size is a corrupt stop (40_commands.md R101). -/
theorem execStart_of_not_rootOk {r : Byte} (hr : ¬ rootOk r = true) (n : Count) (s : State) :
    execStart r n s =
      .next (returnStatus (raiseCorrupt .badRootSize (r.setWidth 12) (loseDictionary (beginBlock r n s)))) := by
  unfold execStart
  rw [if_neg hr]

/-- Settles O13: by the two branches on the root size; what both write is what `beginBlock` writes. -/
theorem startBeginsABlock : Obligations.StartBeginsABlock := by
  unfold Obligations.StartBeginsABlock
  intro s r n
  rw [← rootOk_iff]
  by_cases hr : rootOk r = true
  · refine ⟨_, execStart_of_rootOk hr n s, rfl, rfl, rfl, rfl, rfl, rfl, rfl, rfl, rfl, rfl, fun _ => ?_,
      fun hbad => absurd hr hbad⟩
    refine ⟨rfl, rfl, rfl, initialCodeSize_toNat hr, firstFree_toNat hr, rfl, fun c hc => ?_, fun c hc => ?_, rfl⟩
    · exact (writeLiterals_read _ _ _).trans (if_pos hc)
    · exact (writeLiterals_read _ _ _).trans (if_neg (Nat.not_lt.2 hc))
  · exact ⟨_, execStart_of_not_rootOk hr n s, rfl, rfl, rfl, rfl, rfl, rfl, rfl, rfl, rfl, rfl,
      fun hok => absurd hok hr, fun _ => ⟨rfl, rfl, rfl⟩⟩

/-! ## FEED and EOD outside RUN -/

theorem returnStatus_eq_self {s : State} (h : s.result = some s.status) : returnStatus s = s := by
  rw [returnStatus, ← h]

theorem execFeed_of_not_run {s : State} (b : Byte) (h : s.status ≠ .run) :
    execFeed b s = .next (returnStatus s) := if_neg h

theorem execEod_of_not_run {s : State} (h : s.status ≠ .run) : execEod s = .next (returnStatus s) := by
  rw [execEod, if_neg h]

theorem execEod_of_run {s : State} (h : s.status = .run) :
    execEod s = .next (returnStatus { s with status := .truncated }) := by
  rw [execEod, if_pos h]

/-- Settles O17: EOD by the two branches on `status`. -/
theorem eodTruncatesARun : Obligations.EodTruncatesARun := by
  unfold Obligations.EodTruncatesARun
  exact fun s => ⟨execEod_of_run, execEod_of_not_run⟩

/-- Settles O14: a rejected START already returned CORRUPT, so the commands after it return what the port shows. -/
theorem startAcceptsRootSizesTwoToEight : Obligations.StartAcceptsRootSizesTwoToEight := by
  unfold Obligations.StartAcceptsRootSizesTwoToEight
  intro s t r n h
  obtain ⟨-, -, -, -, -, -, hresult, -, -, -, hgood, hbad⟩ := next_satisfies (startBeginsABlock s r n) h
  refine ⟨⟨fun hne => ?_, fun hr => ?_⟩, fun hr => ?_⟩
  · by_contra hr
    exact hne (hbad hr).1
  · rw [(hgood hr).1]
    split <;> simp
  · obtain ⟨hcorrupt, hcause, hfault⟩ := hbad hr
    have hstop : t.status ≠ .run := by simp [hcorrupt]
    have hport := returnStatus_eq_self hresult
    exact ⟨hcorrupt, hcause, hfault, fun b => (execFeed_of_not_run b hstop).trans (congrArg _ hport),
      (execEod_of_not_run hstop).trans (congrArg _ hport)⟩

/-! ## FEED in RUN -/

/-- A code has at least 3 bits, so a decode loop runs at most a third as many codes as it has bits. -/
theorem DecodeRun.three_mul_le {n : Nat} {s t : State} (h : DecodeRun n s t) (hi : Inv s) :
    3 * n ≤ s.nbits.toNat := by
  obtain ⟨m, u, -, -, -, hrun, hle, -⟩ := decodeLoop_inv hi (le_refl _)
  rwa [(h.unique hrun).1]

/-- Less than one code and a byte hold at most three codes: the first leaves at most 7 bits, room for two of the
narrowest (41_code_stream.md R122). A Clear may narrow the width after the first, so the width alone does not bound it. -/
theorem DecodeRun.le_three {n : Nat} {s t : State} (h : DecodeRun n s t) (hi : Inv s)
    (hbits : s.nbits.toNat ≤ s.codeSize.toNat + 7) : n ≤ 3 := by
  cases h with
  | done _ _ => omega
  | next m _ u _ hr hexec hrest =>
    obtain ⟨-, hle⟩ := (codeReady_iff s).1 hr
    obtain ⟨v, -, hinv, hframe, hexec'⟩ := decodeOne_inv hi hr
    cases hexec.symm.trans hexec'
    have hleft := hrest.three_mul_le hinv
    rw [hframe.nbits, consumeCode_nbits_toNat hle] at hleft
    omega

theorem nbits_lt_codeSize_of_not_ready {s : State} (hr : codeReady s = false) (hrun : s.status = .run) :
    s.nbits.toNat < s.codeSize.toNat := by
  by_contra hle
  simp [(codeReady_iff s).2 ⟨hrun, Nat.not_lt.1 hle⟩] at hr

/-- FEED between commands of a running block appends its byte and runs the decode loop to its end (40_commands.md
R102). -/
theorem execFeed_decodeRun {s : State} (b : Byte) (hi : Inv s) (hrun : s.status = .run) (hr : codeReady s = false) :
    ∃ n t, n ≤ 3 ∧ DecodeRun n (appendByte b s) t ∧ execFeed b s = .next (returnStatus t) := by
  have hn := nbits_le_of_not_ready hi hr hrun
  have hinv := appendByte_inv b hi hn
  have hfew := nbits_lt_codeSize_of_not_ready hr hrun
  have happend : (appendByte b s).nbits.toNat ≤ (appendByte b s).codeSize.toNat + 7 := by
    rw [appendByte_nbits_toNat b (by omega), appendByte_codeSize]
    omega
  obtain ⟨n, t, hloop, -, -, hdec, -⟩ := decodeLoop_inv hinv (le_refl _)
  refine ⟨n, t, hdec.le_three hinv happend, hdec, ?_⟩
  rw [execFeed, if_pos hrun]
  dsimp only
  rw [hloop, andThen_next]

/-- Settles O15: the decode loop is a run of code-class instructions, and the bits bound its length. -/
theorem feedRunsItsCodes : Obligations.FeedRunsItsCodes := by
  unfold Obligations.FeedRunsItsCodes
  exact fun s b => ⟨execFeed_of_not_run b, execFeed_decodeRun b⟩

/-! ## Frames -/

/-- What no instruction but START writes: the operands of the last START, the host's actions, its last read, and the
free-value counter. -/
def hostFields (s : State) : Byte × Count × List HostAction × Option ReadData × Nat :=
  (s.rootSize, s.expected, s.pending, s.readData, s.freeTick)

theorem StorageOp.hostFields_eq {s t : State} (h : StorageOp s t) : hostFields t = hostFields s := by
  cases h with
  | registers ht => rw [ht]; rfl
  | emit c ht => rw [(emit_frame ht).1]; rfl
  | addEntry p px ht => rw [(addEntry_frame ht).1]; rfl
  | resetDictionary ht => subst ht; rfl

theorem StorageRun.hostFields_eq {s t : State} (h : StorageRun s t) : hostFields t = hostFields s := by
  induction h with
  | refl => rfl
  | tail _ hop ih => exact hop.hostFields_eq.trans ih

theorem execEod_frame {s t : State} (h : execEod s = .next t) :
    t = { s with status := t.status, result := t.result } := by
  cases h
  split <;> rfl

/-- Settles O39: START by what it writes, FEED as a run of storage operations, EOD by its two branches. -/
theorem commandFrames : Obligations.CommandFrames := by
  unfold Obligations.CommandFrames
  intro s t
  refine ⟨fun r n h => ?_, fun b h => ?_, execEod_frame⟩
  · obtain ⟨-, -, -, -, -, -, -, hout, hpending, hread, -⟩ := next_satisfies (startBeginsABlock s r n) h
    exact ⟨hout, hpending, hread⟩
  · simpa only [hostFields, Prod.mk.injEq] using (execFeed_storageRun h).hostFields_eq

/-! ## Steps between commands -/

/-- Settles O9: fetch decodes the host's word and hands the state on without it. -/
theorem stepRunsTheDecodedCommand : Obligations.StepRunsTheDecodedCommand := by
  unfold Obligations.StepRunsTheDecodedCommand
  exact fun s w i rest => step_of_command

/-- Below `outCount` a read answers the pixel that stands there (40_commands.md R105). -/
theorem readOutput_of_written {i : Count} {s : State} {v : Byte} (hi : i.toNat < s.outCount.toNat)
    (hv : Store.read s.out i.toNat = some v) :
    readOutput i s = .next { s with readData := some (.pixel v) } := by
  rw [readOutput, writtenPixel, if_pos hi, hv]

/-- From `outCount` on a read answers the host's own contents, or there is no such position (70_reset_and_hazards.md
R243, log 7). -/
theorem readOutput_of_unwritten {i : Count} {s : State} (hi : s.outCount.toNat ≤ i.toNat) :
    readOutput i s = if i.toNat < s.expected.toNat then
        .next { s with readData := some (.pixel (Config.freeOutput s.freeTick)), freeTick := s.freeTick + 1 }
      else .fault .outputOutOfRange := by
  rw [readOutput, writtenPixel, if_neg (Nat.not_lt.2 hi)]

/-- Settles O49: the invariants give every position below `outCount` its pixel, and keep `outCount` up to `expected`. -/
theorem outputPositionsBelowCountAreReadable : Obligations.OutputPositionsBelowCountAreReadable := by
  unfold Obligations.OutputPositionsBelowCountAreReadable
  intro s i rest hi hr hp
  rw [step_of_readOut hr hp]
  refine ⟨fun hlt => ?_, fun hle hlt => ?_, fun hle => ?_⟩
  · obtain ⟨v, hv, hval⟩ := hi.written _ hlt
    exact ⟨v, hv, hval, readOutput_of_written (s := { s with pending := rest }) hlt hv⟩
  · exact ⟨_, (readOutput_of_unwritten (s := { s with pending := rest }) hle).trans (if_pos hlt)⟩
  · have hcount := hi.countLe
    exact (readOutput_of_unwritten (s := { s with pending := rest }) (hcount.trans hle)).trans
      (if_neg (Nat.not_lt.2 hle))

end Sys2Proof.Machine

/-! PROOFS, family 41_code_stream.md: AppendByte and ExtractCode as arithmetic, a step inside the decode loop, and the pace
of the bytes. -/

namespace Sys2Proof.Machine

/-! ## AppendByte and ExtractCode -/

/-- No bit stands above the byte (10_state.md R30). -/
theorem appendByte_acc_lt {s : State} (b : Byte) (hacc : s.acc.toNat < 2 ^ s.nbits.toNat) (hn : s.nbits.toNat ≤ 23) :
    (appendByte b s).acc.toNat < 2 ^ (appendByte b s).nbits.toNat := by
  rw [appendByte_acc_toNat b hacc (by omega), appendByte_nbits_toNat b hn]
  calc s.acc.toNat + b.toNat * 2 ^ s.nbits.toNat
      < 2 ^ s.nbits.toNat + b.toNat * 2 ^ s.nbits.toNat := Nat.add_lt_add_right hacc _
    _ = (b.toNat + 1) * 2 ^ s.nbits.toNat := by rw [Nat.add_one_mul, Nat.add_comm]
    _ ≤ 2 ^ 8 * 2 ^ s.nbits.toNat := Nat.mul_le_mul_right _ b.isLt
    _ = 2 ^ (s.nbits.toNat + 8) := by rw [Nat.pow_add, Nat.mul_comm]

/-- Settles O18: the shifted byte and the occupied bits share no bit, so their union is a sum. -/
theorem appendBytePutsTheByteAbove : Obligations.AppendBytePutsTheByteAbove := by
  unfold Obligations.AppendBytePutsTheByteAbove
  intro s b hacc hn
  have hnbits := appendByte_nbits_toNat b (s := s) (by omega)
  exact ⟨_, rfl, appendByte_acc_toNat b hacc (by omega), hnbits, appendByte_acc_lt b hacc (by omega), by omega, rfl⟩

theorem extractedCode_toNat {s : State} (hw : s.codeSize.toNat ≤ 12) :
    (extractedCode s).toNat = s.acc.toNat % 2 ^ s.codeSize.toNat := by
  rw [extractedCode, BitVec.toNat_ofNat]
  exact Nat.mod_eq_of_lt
    (Nat.lt_of_lt_of_le (Nat.mod_lt _ (Nat.two_pow_pos _)) (Nat.pow_le_pow_right (by omega) hw))

/-- Settles O19: taking the low bits is a remainder, and shifting them out is the quotient. -/
theorem extractTakesTheOldestBits : Obligations.ExtractTakesTheOldestBits := by
  unfold Obligations.ExtractTakesTheOldestBits
  intro s hw hle
  have hcode := extractedCode_toNat hw
  exact ⟨hcode, hcode ▸ Nat.mod_lt _ (Nat.two_pow_pos _), _, rfl, consumeCode_acc_toNat s,
    consumeCode_nbits_toNat hle, rfl⟩

/-! ## A step inside the decode loop -/

/-- One iteration of the decode loop runs the next code as the instruction of its class (41_code_stream.md R122). -/
theorem decodeOne_eq_exec (s : State) : decodeOne s = exec (decodeCode s.ctx (extractedCode s)) (consumeCode s) := by
  rw [decodeOne, dispatch_eq_exec, ctx_consumeCode]

/-- Settles O10: a step there is one iteration of the decode loop. -/
theorem stepRunsTheNextCode : Obligations.StepRunsTheNextCode := by
  unfold Obligations.StepRunsTheNextCode
  exact fun s hr => (step_of_codeReady hr).trans (decodeOne_eq_exec s)

/-! ## A byte appended before a code is run

A byte stands above the bits already there, so appending it commutes with each part of the decode loop that finds a whole
code: the readiness test, the extraction, and the class (41_code_stream.md R125). -/

theorem codeReady_appendByte {s : State} (b : Byte) (hi : Inv s) (hr : codeReady s = true) :
    codeReady (appendByte b s) = true := by
  obtain ⟨hrun, hle⟩ := (codeReady_iff s).1 hr
  have hnbits := appendByte_nbits_toNat b (hi.nbitsLe.trans (by omega))
  exact (codeReady_iff _).2 ⟨hrun, by rw [hnbits]; exact Nat.le_add_right_of_le hle⟩

/-- The byte's weight is a multiple of the range of a code that is whole without it. -/
theorem appendByte_acc_toNat_above_code {s : State} (b : Byte) (hi : Inv s) (hr : codeReady s = true) :
    (appendByte b s).acc.toNat =
      s.acc.toNat + b.toNat * 2 ^ (s.nbits.toNat - s.codeSize.toNat) * 2 ^ s.codeSize.toNat := by
  obtain ⟨-, hle⟩ := (codeReady_iff s).1 hr
  rw [appendByte_acc_toNat b hi.accBits (hi.nbitsLe.trans (by omega)), Nat.mul_assoc, ← Nat.pow_add,
    Nat.sub_add_cancel hle]

theorem extractedCode_appendByte {s : State} (b : Byte) (hi : Inv s) (hr : codeReady s = true) :
    extractedCode (appendByte b s) = extractedCode s := by
  rw [extractedCode, appendByte_acc_toNat_above_code b hi hr, appendByte_codeSize, Nat.add_mul_mod_self_right,
    ← extractedCode]

/-- Extracting a code moves the byte down with the bits below it. -/
theorem consumeCode_appendByte {s : State} (b : Byte) (hi : Inv s) (hr : codeReady s = true) :
    consumeCode (appendByte b s) = appendByte b (consumeCode s) := by
  obtain ⟨-, hle⟩ := (codeReady_iff s).1 hr
  have hinv := consumeCode_inv hi hr
  have hacc : (consumeCode (appendByte b s)).acc = (appendByte b (consumeCode s)).acc := by
    apply BitVec.eq_of_toNat_eq
    rw [consumeCode_acc_toNat, appendByte_codeSize, appendByte_acc_toNat_above_code b hi hr,
      Nat.add_mul_div_right _ _ (Nat.two_pow_pos _),
      appendByte_acc_toNat b hinv.accBits (hinv.nbitsLe.trans (by omega)), consumeCode_acc_toNat,
      consumeCode_nbits_toNat hle]
  have hnbits : (consumeCode (appendByte b s)).nbits = (appendByte b (consumeCode s)).nbits := by
    simp only [consumeCode_nbits, appendByte_nbits, appendByte_codeSize]
    bv_omega
  exact congrArg₂ (State.withBits · · s) hacc hnbits

/-- A class neither reads nor writes the accumulator, so the byte may arrive before it runs. -/
theorem dispatch_appendByte {c : Code} {s t : State} (b : Byte) (h : dispatch c s = .next t) :
    dispatch c (appendByte b s) = .next (appendByte b t) := by
  have hframe := dispatch_frame h
  rw [dispatch_eq_exec] at h
  calc dispatch c (appendByte b s)
      = exec (decodeCode s.ctx c) (s.withBits (appendByte b s).acc (appendByte b s).nbits) := dispatch_eq_exec _ _
    _ = .next (t.withBits (appendByte b s).acc (appendByte b s).nbits) := by rw [execCode_withBits, h]; rfl
    _ = .next (appendByte b t) := by
        rw [appendByte_acc, appendByte_nbits, ← hframe.acc, ← hframe.nbits]
        rfl

theorem decodeOne_appendByte {s t : State} (b : Byte) (hi : Inv s) (hr : codeReady s = true) (h : decodeOne s = .next t) :
    decodeOne (appendByte b s) = .next (appendByte b t) := by
  rw [decodeOne, extractedCode_appendByte b hi hr, consumeCode_appendByte b hi hr]
  exact dispatch_appendByte b h

/-- A byte that arrives before a run of the decode loop lets the same codes run, and the loop goes on from where the byte
would have found it. -/
theorem DecodeRun.appendByte_trans {n m : Nat} {s t u : State} (b : Byte) (hi : Inv s) (h : DecodeRun n s t)
    (h' : DecodeRun m (appendByte b t) u) : DecodeRun (n + m) (appendByte b s) u := by
  induction h with
  | done s _ => rwa [Nat.zero_add]
  | next n s s1 t hr hexec _ ih =>
    obtain ⟨v, hone, hinv, -, hexec'⟩ := decodeOne_inv hi hr
    cases hexec.symm.trans hexec'
    have hexecb := (decodeOne_eq_exec (appendByte b s)).symm.trans (decodeOne_appendByte b hi hr hone)
    rw [Nat.succ_add]
    exact .next _ _ _ _ (codeReady_appendByte b hi hr) hexecb (ih hinv h')

/-- Between commands a running block has room for a byte. -/
theorem appendByte_inv_of_not_ready {s : State} (b : Byte) (hi : Inv s) (hrun : s.status = .run)
    (hr : codeReady s = false) : Inv (appendByte b s) :=
  appendByte_inv b hi (nbits_le_of_not_ready hi hr hrun)

/-- Settles O16: the second byte moves past the first byte's codes, one by one. -/
theorem paceOfBytesChangesNothing : Obligations.PaceOfBytesChangesNothing := by
  unfold Obligations.PaceOfBytesChangesNothing
  exact fun s t u b b' n m hi hrun hr h _ h' => h.appendByte_trans b' (appendByte_inv_of_not_ready b hi hrun hr) h'

/-- Settles O53: the same, and a stopped block runs no code of the second byte. -/
theorem bitsAfterAStopChangeNothing : Obligations.BitsAfterAStopChangeNothing := by
  unfold Obligations.BitsAfterAStopChangeNothing
  intro s t b b' n hi hrun hr h hstop
  have hidle : DecodeRun 0 (appendByte b' t) (appendByte b' t) := .done _ (codeReady_of_not_run hstop)
  exact ⟨_, h.appendByte_trans b' (appendByte_inv_of_not_ready b hi hrun hr) hidle, rfl⟩

end Sys2Proof.Machine

/-! PROOFS, family 42_code_dispatch.md: what the eight code classes do, and what each leaves alone. -/

namespace Sys2Proof.Machine

/-! ## The classes that emit nothing -/

/-- Settles O21: EOI is its one write of `status`. -/
theorem eoiStopsTheBlock : Obligations.EoiStopsTheBlock := by
  unfold Obligations.EoiStopsTheBlock
  exact fun _ _ => rfl

/-- Settles O22: each of the three is one `raise Corrupt`. -/
theorem corruptClassesRecordTheCode : Obligations.CorruptClassesRecordTheCode := by
  unfold Obligations.CorruptClassesRecordTheCode
  exact fun _ _ => ⟨rfl, rfl, rfl⟩

/-- Settles O23: the literal slots are those below Clear, and for `rootSize` in `[2, 8]` no register wraps. -/
theorem clearResetsTheDictionary : Obligations.ClearResetsTheDictionary := by
  unfold Obligations.ClearResetsTheDictionary
  intro s c hlow hhigh
  have hr := (rootOk_iff s.rootSize).2 ⟨hlow, hhigh⟩
  refine ⟨resetDictionary s, rfl, initialCodeSize_toNat hr, firstFree_toNat hr, rfl, fun a ha => ?_, fun a ha => ?_, rfl⟩
  · exact (writeLiterals_read _ _ _).trans (if_pos ha)
  · exact (writeLiterals_read _ _ _).trans (if_neg (Nat.not_lt.2 ha))

/-! ## What an accepted code can do -/

/-- `t` differs from `s` at most in what FIRST, KWKWK and KNOWN write (42_code_dispatch.md R143, R145, R146). -/
def AcceptedFrame (s t : State) : Prop :=
  t = { s with
    status := t.status, out := t.out, outCount := t.outCount, stack := t.stack, sp := t.sp
    previousCode := t.previousCode, dictionary := t.dictionary, nextFreeCode := t.nextFreeCode
    codeSize := t.codeSize }

theorem AcceptedFrame.trans {s t u : State} (h1 : AcceptedFrame s t) (h2 : AcceptedFrame t u) : AcceptedFrame s u := by
  unfold AcceptedFrame at *
  rw [h2, h1]

theorem EmitFrame.accepted {s t : State} (h : EmitFrame s t) : AcceptedFrame s t := by rw [h]; rfl

theorem EntryFrame.accepted {s t : State} (h : EntryFrame s t) : AcceptedFrame s t := by rw [h]; rfl

theorem acceptCode_accepted (c : Code) (s : State) : AcceptedFrame s (acceptCode c s) := by
  unfold AcceptedFrame acceptCode checkComplete
  split <;> rfl

theorem AcceptedFrame.codeFrame {s t : State} (h : AcceptedFrame s t) : CodeFrame s t := by
  rw [h]; exact ⟨rfl, rfl, rfl, rfl, rfl, rfl, rfl, rfl⟩

/-- The three classes that accept their code, in every state: emission and at most one AddEntry, then `previousCode` and
the check of the count. -/
theorem execAccepted_eq_next {i : Instr} {c : Code} {s t : State}
    (hi : i = .codeFirst c ∨ i = .codeKwkwk c ∨ i = .codeKnown c) (h : exec i s = .next t) :
    t.previousCode = some c ∧ AcceptedFrame s t := by
  obtain rfl | rfl | rfl := hi
  · obtain ⟨u, hu, rfl⟩ := execCodeFirst_eq_next h
    exact ⟨acceptCode_previousCode u c, (emit_frame hu).1.accepted.trans (acceptCode_accepted c u)⟩
  · obtain ⟨p, q, u, v, -, -, hu, hv, rfl⟩ := execCodeKwkwk_eq_next h
    exact ⟨acceptCode_previousCode v c,
      ((addEntry_frame hu).1.accepted.trans (emit_frame hv).1.accepted).trans (acceptCode_accepted c v)⟩
  · obtain ⟨p, q, u, v, -, hu, -, hv, rfl⟩ := execCodeKnown_eq_next h
    exact ⟨acceptCode_previousCode v c,
      ((emit_frame hu).1.accepted.trans (addEntry_frame hv).1.accepted).trans (acceptCode_accepted c v)⟩

/-! ## What the classes leave alone -/

/-- No code class writes what R149 says none does (42_code_dispatch.md R149), in every state. -/
theorem execCode_codeFrame {i : Instr} {c : Code} {s t : State} (hc : encode i = .code c) (h : exec i s = .next t) :
    CodeFrame s t := by
  cases i with
  | start r n => cases hc
  | feed b => cases hc
  | eod => cases hc
  | codeFirst c => exact (execAccepted_eq_next (.inl rfl) h).2.codeFrame
  | codeKwkwk c => exact (execAccepted_eq_next (.inr (.inl rfl)) h).2.codeFrame
  | codeKnown c => exact (execAccepted_eq_next (.inr (.inr rfl)) h).2.codeFrame
  | _ => cases h; exact ⟨rfl, rfl, rfl, rfl, rfl, rfl, rfl, rfl⟩

/-- FIRST adds no entry (42_code_dispatch.md R143). -/
theorem execCodeFirst_dictionary {c : Code} {s t : State} (h : execCodeFirst c s = .next t) :
    t.dictionary = s.dictionary ∧ t.nextFreeCode = s.nextFreeCode ∧ t.codeSize = s.codeSize := by
  obtain ⟨u, hu, rfl⟩ := execCodeFirst_eq_next h
  rw [acceptCode_dictionary, acceptCode_nextFreeCode, acceptCode_codeSize, (emit_frame hu).1]
  exact ⟨rfl, rfl, rfl⟩

/-- Settles O38: the stops and CLEAR by what they write, the accepted classes by their frame. -/
theorem codeClassFrames : Obligations.CodeClassFrames := by
  unfold Obligations.CodeClassFrames
  intro s t i c hc h
  obtain ⟨hroot, hexp, hacc, hnbits, hpending, hresult, hread, htick⟩ := execCode_codeFrame hc h
  refine ⟨⟨hroot, hexp, hacc, hnbits, hpending, hresult, hread, htick⟩, ?_, ?_, ?_, ?_⟩
  · rintro (rfl | rfl | rfl | rfl | rfl) <;> cases h <;> exact ⟨rfl, rfl, rfl, rfl⟩
  · rintro (rfl | rfl | rfl | rfl | rfl)
    case inr.inr.inr.inr => exact execCodeFirst_dictionary h
    all_goals cases h; exact ⟨rfl, rfl, rfl⟩
  · rintro (rfl | hi)
    · cases h; exact ⟨rfl, rfl⟩
    · rw [(execAccepted_eq_next hi h).2]; exact ⟨rfl, rfl⟩
  · rintro rfl
    cases h; rfl

/-- Settles O27: one case per constructor. -/
theorem previousCodeWriters : Obligations.PreviousCodeWriters := by
  unfold Obligations.PreviousCodeWriters
  intro s t i h
  cases i with
  | start r n => trivial
  | feed b => trivial
  | eod => dsimp only; rw [execEod_frame h]
  | codeFirst c => exact (execAccepted_eq_next (.inl rfl) h).1
  | codeKwkwk c => exact (execAccepted_eq_next (.inr (.inl rfl)) h).1
  | codeKnown c => exact (execAccepted_eq_next (.inr (.inr rfl)) h).1
  | _ => cases h; rfl

/-! ## The accepted classes in RUN -/

/-- A well-formed code of a running block runs to a state of the invariants (60_exceptions.md R201). -/
theorem exec_of_wellFormed {i : Instr} {c : Code} {s : State} (hi : Inv s) (hrun : s.status = .run)
    (hwf : i.wellFormed s.ctx = true) (hc : encode i = .code c) : ∃ t, exec i s = .next t ∧ Inv t := by
  rw [← decodeCode_of_wellFormed hwf hc, ← dispatch_eq_exec]
  exact dispatch_inv c hi hrun

theorem codeFirst_wellFormed {s : State} {c : Code} (h : (Instr.codeFirst c).wellFormed s.ctx = true) :
    s.previousCode = none ∧ c.toNat < s.nextFreeCode.toNat ∧ notReserved s.rootSize c.toNat := by
  simp only [Instr.wellFormed, Bool.and_eq_true, Bool.not_eq_true', ← Bool.not_eq_true] at h
  obtain ⟨⟨⟨⟨⟨-, hFirst⟩, hEoi⟩, hBeyond⟩, hClear⟩, hNext⟩ := h
  exact ⟨Option.isNone_iff_eq_none.1 hFirst, Nat.lt_of_le_of_ne (not_isBeyond hBeyond) (not_isNext hNext),
    not_isClear hClear, not_isEoi hEoi⟩

theorem codeKwkwk_wellFormed {s : State} {c : Code} (h : (Instr.codeKwkwk c).wellFormed s.ctx = true) :
    c.toNat = s.nextFreeCode.toNat := by
  simp only [Instr.wellFormed, Bool.and_eq_true] at h
  obtain ⟨⟨⟨⟨⟨-, hNext⟩, -⟩, -⟩, -⟩, -⟩ := h
  exact beq_iff_eq.1 hNext

theorem codeKnown_wellFormed {s : State} {c : Code} (h : (Instr.codeKnown c).wellFormed s.ctx = true) :
    c.toNat < s.nextFreeCode.toNat ∧ notReserved s.rootSize c.toNat := by
  simp only [Instr.wellFormed, Bool.and_eq_true, Bool.not_eq_true', ← Bool.not_eq_true] at h
  obtain ⟨⟨⟨⟨⟨⟨⟨-, -⟩, hEoi⟩, hBeyond⟩, hClear⟩, -⟩, hNext⟩, -⟩ := h
  exact ⟨Nat.lt_of_le_of_ne (not_isBeyond hBeyond) (not_isNext hNext), not_isClear hClear, not_isEoi hEoi⟩

/-- Between two states of the invariants the stack is empty at both ends, so an accepted code leaves no trace on it
(10_state.md R34). -/
theorem AcceptedFrame.of_inv {s t : State} (h : AcceptedFrame s t) (hs : Inv s) (ht : Inv t) :
    t = { s with
      status := t.status, out := t.out, outCount := t.outCount, previousCode := t.previousCode
      dictionary := t.dictionary, nextFreeCode := t.nextFreeCode, codeSize := t.codeSize } :=
  Eq.trans h (by rw [ht.spZero, ht.stackEmpty, ← hs.spZero, ← hs.stackEmpty])

/-- An emission that goes on writes the code's string (43_dictionary.md R175, R176). -/
theorem emit_emitted {c : Code} {s t : State} {str : List Byte} (h : emit c s = .next t)
    (hstr : stringOf s c = some str) (hle : s.outCount.toNat ≤ s.expected.toNat) : Emitted str s t := by
  cases (emit_eq hstr).symm.trans h
  exact putString_emitted str s hle

theorem Emitted.acceptCode {str : List Byte} {s t : State} (h : Emitted str s t) (c : Code) :
    Emitted str s (Machine.acceptCode c t) := by
  unfold Emitted
  rw [acceptCode_outCount, acceptCode_out]
  exact h

theorem EntryAdded.acceptCode {e : Slot} {s t : State} (h : EntryAdded e s t) (c : Code) :
    EntryAdded e s (Machine.acceptCode c t) := by
  unfold EntryAdded
  rw [acceptCode_dictionary, acceptCode_nextFreeCode, acceptCode_codeSize]
  exact h

/-- The string of the entry just added is its prefix's string and its own pixel (43_dictionary.md R175): the prefix's chain
lies below the new slot, so the write does not touch it. -/
theorem stringOf_newEntry {s t : State} {p c : Code} {e : Slot} (hl : Live s) (hadd : EntryAdded e s t)
    (hp : p.toNat < s.nextFreeCode.toNat) (hres : notReserved s.rootSize p.toNat) (hprefix : e.prefixCode = some p)
    (hc : c.toNat = s.nextFreeCode.toNat) :
    ∃ str, stringOf s p = some str ∧ stringOf t c = some (str ++ [e.pixelValue]) := by
  obtain ⟨hread, -⟩ := hadd
  obtain ⟨str, -, hstr, -⟩ := pixelString_of_dictInv hl.root hl.dict p hp hres
  have hslot : Store.read t.dictionary c.toNat = some e := (hread _).trans (if_pos hc)
  have hagree : LiveSlotsAgree s.rootSize s.nextFreeCode.toNat s.dictionary t.dictionary :=
    fun a ha _ => ((hread a).trans (if_neg ha.ne)).symm
  have htail : pixelString t.dictionary 4095 p = some str :=
    (pixelString_eq_of_agree hl.dict hagree _ p hp hres).trans (pixelString_mono hstr (by omega))
  refine ⟨str, pixelString_mono hstr p.isLt, ?_⟩
  rw [stringOf, pixelString, hslot]
  simp [hprefix, htail]

/-- Settles O24: with no previous code every live code is a literal, whose string is itself. -/
theorem firstEmitsTheLiteral : Obligations.FirstEmitsTheLiteral := by
  unfold Obligations.FirstEmitsTheLiteral
  intro s c hi hrun hwf
  have hl := hi.live hrun
  obtain ⟨hprev, hlt, hclear, heoi⟩ := codeFirst_wellFormed hwf
  have hlit : c.toNat < clearOf s.rootSize := by
    have hnext := hl.prevNone hprev
    rw [firstFreeOf_eq] at hnext
    rw [eoiOf_eq] at heoi
    omega
  obtain ⟨t, h, hinv⟩ := exec_of_wellFormed hi hrun hwf rfl
  obtain ⟨hprev', hframe⟩ := execAccepted_eq_next (.inl rfl) h
  obtain ⟨hdict, hnext, hsize⟩ := execCodeFirst_dictionary h
  have hnarrow := hframe.of_inv hi hinv
  rw [hdict, hnext, hsize] at hnarrow
  obtain ⟨u, hu, rfl⟩ := execCodeFirst_eq_next h
  refine ⟨hlit, _, h, (emit_emitted hu (stringOf_literal hl hlit) hi.countLe).acceptCode c, hprev',
    acceptCode_checked ?_, hnarrow⟩
  rw [(emit_frame hu).1]
  exact hrun

/-- Settles O25: the entry's string is that of its prefix with its pixel, and emission reads the entry just added. -/
theorem kwkwkDefinesThenEmits : Obligations.KwkwkDefinesThenEmits := by
  unfold Obligations.KwkwkDefinesThenEmits
  intro s c hi hrun hwf
  have hl := hi.live hrun
  obtain ⟨t, h, hinv⟩ := exec_of_wellFormed hi hrun hwf rfl
  obtain ⟨hprev, hframe⟩ := execAccepted_eq_next (.inr (.inl rfl)) h
  obtain ⟨p, q, u, v, hp, hq, hu, hv, rfl⟩ := execCodeKwkwk_eq_next h
  obtain ⟨hplt, hpres⟩ := hl.prevSome p hp
  have hadd := addEntry_added hu hq
  have hentry := (addEntry_frame hu).1
  have hemit := (emit_frame hv).1
  obtain ⟨str, hstr, hstr'⟩ := stringOf_newEntry hl hadd hplt hpres rfl (codeKwkwk_wellFormed hwf)
  have hadded : EntryAdded ⟨some p, q.firstPixel, q.firstPixel⟩ s v := by rw [hemit]; exact hadd
  have hemitted : Emitted (str ++ [q.firstPixel]) s v := by
    have hle : u.outCount.toNat ≤ u.expected.toNat := by rw [hentry]; exact hi.countLe
    have hwritten := emit_emitted hv hstr' hle
    rw [hentry] at hwritten
    exact hwritten
  refine ⟨p, q, str, _, hp, hq, hstr, h, hadded.acceptCode c, hemitted.acceptCode c, hprev, acceptCode_checked ?_,
    hframe.of_inv hi hinv⟩
  rw [hemit, hentry]
  exact hrun

/-- Settles O26: emission leaves the dictionary and AddEntry the output, so each does its part as if alone. -/
theorem knownEmitsThenDefines : Obligations.KnownEmitsThenDefines := by
  unfold Obligations.KnownEmitsThenDefines
  intro s c hi hrun hwf
  have hl := hi.live hrun
  obtain ⟨hlt, hres⟩ := codeKnown_wellFormed hwf
  obtain ⟨str, -, hstr, -⟩ := stringOf_of_dictInv hl.root hl.dict c hlt hres
  obtain ⟨t, h, hinv⟩ := exec_of_wellFormed hi hrun hwf rfl
  obtain ⟨hprev, hframe⟩ := execAccepted_eq_next (.inr (.inr rfl)) h
  obtain ⟨p, e, u, v, hp, hu, he, hv, rfl⟩ := execCodeKnown_eq_next h
  obtain ⟨-, q, hq, -⟩ := addEntry_eq_next hv
  have hemit := (emit_frame hu).1
  have hentry := (addEntry_frame hv).1
  have hread (k : Code) : readSlot k u = readSlot k s := by rw [hemit]; rfl
  have hadded : EntryAdded ⟨some p, e.firstPixel, q.firstPixel⟩ s v := by
    have hadd := addEntry_added hv hq
    rw [hemit] at hadd
    exact hadd
  have hemitted : Emitted str s v := by
    have hwritten := emit_emitted hu hstr hi.countLe
    rw [hentry]
    exact hwritten
  refine ⟨p, q, e, str, _, hp, (hread p).symm.trans hq, (hread c).symm.trans he, hstr, h, hadded.acceptCode c,
    hemitted.acceptCode c, hprev, acceptCode_checked ?_, hframe.of_inv hi hinv⟩
  rw [hentry, hemit]
  exact hrun

end Sys2Proof.Machine

/-! PROOFS, family 43_dictionary.md: PutPixel, Emit and AddEntry in full, and the reserved slots no instruction writes. -/

namespace Sys2Proof.Machine

/-! ## Emission -/

theorem putPixel_of_room {s : State} (v : Byte) (h : s.outCount.toNat < s.expected.toNat) :
    putPixel v s = { s with out := Store.write s.out s.outCount.toNat v, outCount := s.outCount + 1#32 } := by
  rw [putPixel, hasRoom, if_pos (decide_eq_true h)]
  rfl

theorem putPixel_of_full {s : State} (v : Byte) (h : s.expected.toNat ≤ s.outCount.toNat) : putPixel v s = s := by
  rw [putPixel, hasRoom, if_neg (by simpa using h)]

/-- Settles O28: PutPixel by its two branches, a string by induction on its pixels. -/
theorem putPixelStopsAtExpected : Obligations.PutPixelStopsAtExpected := by
  unfold Obligations.PutPixelStopsAtExpected
  exact fun s v str => ⟨putPixel_of_room v, putPixel_of_full v, putString_emitted str s⟩

/-- Settles O29: the walk pushes the chain tail first, so the drain writes the string oldest first. -/
theorem emitWritesThePixelString : Obligations.EmitWritesThePixelString := by
  unfold Obligations.EmitWritesThePixelString
  intro s c str hstr hle
  refine ⟨_, emit_eq hstr, putString_emitted str s hle, rfl, ?_⟩
  rw [putString_frame]

/-! ## AddEntry -/

/-- Under its precondition AddEntry goes on (43_dictionary.md R172). -/
theorem addEntry_of_room {s : State} {p : Code} {q : Slot} (px : Byte) (hn : s.nextFreeCode.toNat < Config.codeSpace)
    (hq : readSlot p s = some q) :
    addEntry p px s = .next (growCodeSize (defineSlot ⟨some p, px, q.firstPixel⟩ s)) := by
  rw [addEntry, if_pos hn, hq]

/-- Settles O31: AddEntry goes on, and what it then writes is the entry and the width. -/
theorem addEntryDefinesTheNextSlot : Obligations.AddEntryDefinesTheNextSlot := by
  unfold Obligations.AddEntryDefinesTheNextSlot
  intro s p px q hn hq
  have h := addEntry_of_room px hn hq
  obtain ⟨hframe, -⟩ := addEntry_frame h
  exact ⟨_, h, addEntry_added h hq, hframe⟩

/-! ## Slots Clear and EOI -/

/-- From `s` to `t` slots Clear and EOI of root size `r` keep what they hold (43_dictionary.md R171). -/
def ReservedSlotsKept (r : Byte) (s t : State) : Prop :=
  ∀ a, clearOf r ≤ a → a < firstFreeOf r → Store.read t.dictionary a = Store.read s.dictionary a

theorem ReservedSlotsKept.of_eq {r : Byte} {s t : State} (h : t.dictionary = s.dictionary) : ReservedSlotsKept r s t :=
  fun _ _ _ => by rw [h]

theorem ReservedSlotsKept.trans {r : Byte} {s t u : State} (h1 : ReservedSlotsKept r s t)
    (h2 : ReservedSlotsKept r t u) : ReservedSlotsKept r s u :=
  fun a hlow hhigh => (h2 a hlow hhigh).trans (h1 a hlow hhigh)

/-- ResetDictionary writes literals only, all of them below Clear (43_dictionary.md R170). -/
theorem resetDictionary_reservedSlotsKept (s : State) : ReservedSlotsKept s.rootSize s (resetDictionary s) :=
  fun _ hlow _ => (writeLiterals_read _ _ _).trans (if_neg (Nat.not_lt.2 hlow))

/-- The next entry goes above slots Clear and EOI of root size `r` (10_state.md R24, R28). -/
structure NextAboveReserved (r : Byte) (s : State) : Prop where
  root : s.rootSize = r
  rootOk : rootOk r = true
  next : firstFreeOf r ≤ s.nextFreeCode.toNat

theorem Live.nextAboveReserved {s : State} (h : Live s) : NextAboveReserved s.rootSize s :=
  ⟨rfl, h.root, h.nextLow⟩

/-- AddEntry writes slot `nextFreeCode` and moves up from it (43_dictionary.md R172). -/
theorem addEntry_reserved {r : Byte} {p : Code} {px : Byte} {s t : State} (h : addEntry p px s = .next t)
    (hs : NextAboveReserved r s) : NextAboveReserved r t ∧ ReservedSlotsKept r s t := by
  obtain ⟨-, q, hq, -⟩ := addEntry_eq_next h
  obtain ⟨hread, hnext, -⟩ := addEntry_added h hq
  have hroot : t.rootSize = s.rootSize := by rw [(addEntry_frame h).1]
  have hlow := hs.next
  refine ⟨⟨hroot.trans hs.root, hs.rootOk, by omega⟩, fun a _ ha => ?_⟩
  exact (hread a).trans (if_neg (by omega))

theorem StorageOp.reserved {r : Byte} {s t : State} (h : StorageOp s t) (hs : NextAboveReserved r s) :
    NextAboveReserved r t ∧ ReservedSlotsKept r s t := by
  cases h with
  | registers ht => rw [ht]; exact ⟨⟨hs.root, hs.rootOk, hs.next⟩, .of_eq rfl⟩
  | emit c ht => rw [(emit_frame ht).1]; exact ⟨⟨hs.root, hs.rootOk, hs.next⟩, .of_eq rfl⟩
  | addEntry p px ht => exact addEntry_reserved ht hs
  | resetDictionary ht =>
    obtain ⟨rfl, hr, -⟩ := hs
    subst ht
    exact ⟨⟨rfl, hr, (firstFree_toNat hr).ge⟩, resetDictionary_reservedSlotsKept s⟩

theorem StorageRun.reserved {r : Byte} {s t : State} (h : StorageRun s t) (hs : NextAboveReserved r s) :
    NextAboveReserved r t ∧ ReservedSlotsKept r s t := by
  induction h with
  | refl => exact ⟨hs, .of_eq rfl⟩
  | tail _ hop ih =>
    obtain ⟨habove, hkept⟩ := ih
    obtain ⟨habove', hkept'⟩ := hop.reserved habove
    exact ⟨habove', hkept.trans hkept'⟩

/-- In a running block no instruction but START writes slots Clear and EOI. -/
theorem exec_reservedSlotsKept_of_run {i : Instr} {s t : State} (hi : Inv s) (hrun : s.status = .run)
    (hstart : ∀ r n, i ≠ .start r n) (h : exec i s = .next t) : ReservedSlotsKept t.rootSize s t := by
  obtain ⟨habove, hkept⟩ := (exec_storageRun hstart h).reserved (hi.live hrun).nextAboveReserved
  rw [habove.root]
  exact hkept

/-- An accepted START writes them neither, by its own root size (40_commands.md R100, 43_dictionary.md R171). -/
theorem execStart_reservedSlotsKept {r : Byte} {n : Count} {s t : State} (h : execStart r n s = .next t)
    (hr : rootOk t.rootSize = true) : ReservedSlotsKept t.rootSize s t := by
  obtain ⟨hroot, -, -, -, -, -, -, -, -, -, haccept, -⟩ := next_satisfies (startBeginsABlock s r n) h
  rw [hroot] at hr ⊢
  obtain ⟨-, -, -, -, -, -, -, hkept, -⟩ := haccept ((rootOk_iff r).1 hr)
  exact fun a hlow _ => hkept a hlow

/-- Settles O33: entries go from `firstFreeOf` up and literals stay below Clear; outside RUN only START writes a slot. -/
theorem reservedSlotsAreNeverWritten : Obligations.ReservedSlotsAreNeverWritten := by
  unfold Obligations.ReservedSlotsAreNeverWritten
  intro s t i hi hturn h hlow hhigh
  suffices hkept : ReservedSlotsKept t.rootSize s t from
    ⟨hkept _ (le_refl _) (Nat.lt_add_of_pos_right (by decide)), hkept _ (Nat.le_succ _) (Nat.lt_succ_self _)⟩
  cases i with
  | start r n => exact execStart_reservedSlotsKept h ((rootOk_iff _).2 ⟨hlow, hhigh⟩)
  | feed b =>
    by_cases hrun : s.status = .run
    · exact exec_reservedSlotsKept_of_run hi hrun (by simp) h
    · cases (execFeed_of_not_run b hrun).symm.trans h
      exact .of_eq rfl
  | eod => rw [execEod_frame h]; exact .of_eq rfl
  | _ =>
    obtain ⟨hrun, -⟩ | ⟨-, w, hw⟩ := hturn
    · exact exec_reservedSlotsKept_of_run hi hrun (by simp) h
    · cases hw

end Sys2Proof.Machine

/-! PROOFS, family 60_exceptions.md: the statuses at rest, in which only START and hardware reset change the block, and the
complete list of the ways a step can stop. -/

namespace Sys2Proof.Machine

/-! ## A block that does not run -/

theorem done_iff (s : State) :
    s.done = true ↔ s.status = .complete ∨ s.status = .eoi ∨ s.status = .corrupt ∨ s.status = .truncated := by
  rw [State.done]
  cases s.status <;> simp [Status.isTerminal]

/-- From `s` to `t` only the host's list of actions, the result port, the host's last read and the free-value counter
change. -/
def PortFrame (s t : State) : Prop :=
  t = { s with pending := t.pending, result := t.result, readData := t.readData, freeTick := t.freeTick }

/-- The host's moves in a block that does not run, IDLE included: FEED and EOD only present the status (40_commands.md R102,
R103), and a read only answers the host. -/
theorem HostStep.portFrame_of_not_run {s t : State} (hstop : s.status ≠ .run) (h : HostStep s t) :
    PortFrame s t ∨
    (∃ rest, s.pending = .hardReset :: rest) ∨
    (∃ w rest r n, s.pending = .command w :: rest ∧ decodeCommand w = .ok (.start r n)) := by
  cases h with
  | wait _ _ ht => subst ht; exact .inl rfl
  | start rest w r n hp hd _ => exact .inr (.inr ⟨w, rest, r, n, hp, hd⟩)
  | feed rest w b _ _ ht =>
    cases (execFeed_of_not_run (s := { s with pending := rest }) b hstop).symm.trans ht
    exact .inl rfl
  | eod rest w _ _ ht =>
    cases (execEod_of_not_run (s := { s with pending := rest }) hstop).symm.trans ht
    exact .inl rfl
  | hardReset rest hp _ => exact .inr (.inl ⟨rest, hp⟩)
  | readReg rest r _ ht =>
    obtain ⟨-, rfl⟩ := readPort_eq_next ht
    exact .inl rfl
  | readOut rest i _ ht =>
    obtain ⟨v, -, rfl⟩ | ⟨-, -, rfl⟩ := readOutput_eq_next ht <;> exact .inl rfl

/-- Settles O40: a terminal status is not RUN, so the step is one of the host's moves, taken by its case. -/
theorem terminalStatusIsFrozen : Obligations.TerminalStatusIsFrozen := by
  unfold Obligations.TerminalStatusIsFrozen
  intro s
  refine ⟨done_iff s, fun t hterminal h => ?_⟩
  have hstop : s.status ≠ .run := by
    intro hrun
    simp [hrun] at hterminal
  exact ((step_eq_next_iff_hostStep (codeReady_of_not_run hstop)).1 h).portFrame_of_not_run hstop

/-! ## The ways a step can stop -/

/-- Between commands every command goes on, in the states a run reaches. -/
theorem exec_next_of_decodeCommand {s : State} {w : CommandWord} {i : Instr} (hi : Inv s) (hr : codeReady s = false)
    (hd : decodeCommand w = .ok i) : ∃ t, exec i s = .next t := by
  obtain ⟨r, n, rfl⟩ | ⟨b, rfl⟩ | rfl := decodeCommand_ok hd
  · exact (execStart_inv r n hi.outWf hi.dictWf).imp fun _ h => h.1
  · exact (execFeed_inv b hi hr).imp fun _ h => h.1
  · exact (execEod_inv hi hr).imp fun _ h => h.1

theorem readPort_next_or_fault (r : ReadReg) (s : State) :
    (∃ t, readPort r s = .next t) ∨ (readPort r s = .fault .unspecifiedRegister ∧ isSpecified s r = false) := by
  unfold readPort
  split
  · exact .inl ⟨_, rfl⟩
  · next h => exact .inr ⟨rfl, by simpa using h⟩

theorem readOutput_next_or_fault (i : Count) (s : State) :
    (∃ t, readOutput i s = .next t) ∨
    (readOutput i s = .fault .outputOutOfRange ∧ s.expected.toNat ≤ i.toNat) := by
  unfold readOutput
  split
  · exact .inl ⟨_, rfl⟩
  split
  · exact .inl ⟨_, rfl⟩
  · next h => exact .inr ⟨rfl, Nat.not_lt.1 h⟩

/-- Settles O46: the decode loop and the three commands go on under the invariants, which leaves the stops of the host's
other moves. -/
theorem nothingElseStopsTheBlock : Obligations.NothingElseStopsTheBlock := by
  unfold Obligations.NothingElseStopsTheBlock
  intro s hi
  cases hr : codeReady s with
  | true =>
    obtain ⟨t, ht, -⟩ := decodeOne_inv hi hr
    exact .inl ⟨t, (step_of_codeReady hr).trans ht⟩
  | false =>
    cases hp : s.pending with
    | nil =>
      rw [step_of_noAction hr hp]
      by_cases hrun : s.status = .run
      · exact .inr (.inr (.inl ⟨if_pos hrun, hrun, rfl⟩))
      · exact .inl ⟨s, if_neg hrun⟩
    | cons a rest =>
      cases a with
      | command w =>
        cases hd : decodeCommand w with
        | error e => exact .inr (.inl ⟨e, step_of_reserved hr hp hd, w, rest, rfl, hd⟩)
        | ok i =>
          rw [step_of_command hr hp hd]
          exact .inl (exec_next_of_decodeCommand (setPorts_inv _ _ _ _ hi) hr hd)
      | hardReset => exact .inl ⟨_, step_of_hardReset hr hp⟩
      | readReg r =>
        rw [step_of_readReg hr hp]
        obtain hnext | ⟨hfault, hspec⟩ := readPort_next_or_fault r { s with pending := rest }
        · exact .inl hnext
        · have hport : isSpecified { s with pending := rest } r = isSpecified s r := by cases r <;> rfl
          exact .inr (.inr (.inr (.inl ⟨hfault, r, rest, rfl, hport ▸ hspec⟩)))
      | readOut i =>
        rw [step_of_readOut hr hp]
        obtain hnext | ⟨hfault, hrange⟩ := readOutput_next_or_fault i { s with pending := rest }
        · exact .inl hnext
        · exact .inr (.inr (.inr (.inr ⟨hfault, i, rest, rfl, hrange⟩)))

end Sys2Proof.Machine

/-! PROOFS, family 70_reset_and_hazards.md: hardware reset, the idle host, and the outcome of a block run. -/

namespace Sys2Proof.Machine

/-! ## Hardware reset and the idle host -/

/-- Settles O47: State.reset has the values by definition, and the host's reset leaves `hardReset` of the state. -/
theorem hardwareResetValues : Obligations.HardwareResetValues := by
  refine ⟨⟨rfl, rfl, rfl, rfl, rfl, rfl, rfl, rfl⟩, fun s rest hr hp => ?_⟩
  exact ⟨_, step_of_hardReset hr hp, rfl, rfl, rfl, rfl, rfl, rfl, rfl, rfl, rfl, rfl⟩

/-- Settles O12: with no action left, the step is decided by the status alone. -/
theorem noActionWaitsOrIsStuck : Obligations.NoActionWaitsOrIsStuck := by
  intro s hr hp
  rw [step_of_noAction hr hp]
  exact ⟨fun h => if_pos h, fun h => if_neg h⟩

/-! ## The outcome of a block run -/

/-- The pixel at position `i` of the output, 0 where the block wrote none. -/
def outputPixel (s : State) (i : Nat) : Byte := (Store.read s.out i).getD 0#8

/-- Every position below `outCount` was written (43_dictionary.md R178), so its pixel is what the buffer holds there. -/
theorem Inv.read_out_eq_outputPixel {s : State} (hi : Inv s) {i : Nat} (h : i < s.outCount.toNat) :
    Store.read s.out i = some (outputPixel s i) := by
  obtain ⟨v, hv, -⟩ := hi.written i h
  rw [outputPixel, hv, Option.getD_some]

/-- No position below `outCount` is dropped from the outcome. -/
theorem Inv.filterMap_read_out {s : State} (hi : Inv s) :
    (List.range s.outCount.toNat).filterMap (Store.read s.out) =
      (List.range s.outCount.toNat).map (outputPixel s) := by
  rw [← List.filterMap_eq_map]
  exact List.filterMap_congr fun i h => hi.read_out_eq_outputPixel (List.mem_range.1 h)

theorem isTerminal_of_not_idle_of_not_run {x : Status} (hidle : x ≠ .idle) (hrun : x ≠ .run) : x.isTerminal = true := by
  cases x with
  | idle => exact absurd rfl hidle
  | run => exact absurd rfl hrun
  | complete | eoi | corrupt | truncated => rfl

theorem blockOutcome_of_idle_or_run {s : State} (h : s.status = .idle ∨ s.status = .run) : blockOutcome s = none := by
  rw [blockOutcome]
  obtain h | h := h <;> rw [h] <;> rfl

theorem Inv.blockOutcome_of_terminal {s : State} (hi : Inv s) (h : s.status.isTerminal = true) :
    blockOutcome s = some ⟨s.status, s.cause, s.faultCode, s.outCount,
      (List.range s.outCount.toNat).map (outputPixel s)⟩ := by
  rw [blockOutcome, if_pos h, hi.filterMap_read_out]

/-- Settles O37: under the invariants the outcome lists one pixel for each position below `outCount`. -/
theorem blockOutcomeHoldsTheOutput : Obligations.BlockOutcomeHoldsTheOutput := by
  intro s hi
  refine ⟨blockOutcome_of_idle_or_run, fun hidle hrun => ?_⟩
  have hterm := isTerminal_of_not_idle_of_not_run hidle hrun
  refine ⟨_, hi.blockOutcome_of_terminal hterm, by rw [List.length_map, List.length_range], fun i h => ?_⟩
  rw [List.getElem?_map, List.getElem?_range h, Option.map_some, hi.read_out_eq_outputPixel h]

end Sys2Proof.Machine
